-- ==== Sys2Proof/Word.lean ====
section
/-! DEFINITION. The word types of the block: command words, bytes, operands and the 64-bit buffer. -/

namespace Sys2Proof

/-- A byte. -/
abbrev Byte := BitVec 8

/-- A command word (R50): 40 bits, bit 39 the most significant. -/
abbrev Word := BitVec 40

/-- The `arg` field of a command word (R50): 32 bits, unsigned. -/
abbrev Arg := BitVec 32

/-- The bit space `decodedBits` (R19, R30): 64 bits, seen by the consumer as 8 bytes. -/
abbrev Bits64 := BitVec 64

end Sys2Proof
end

