-- ==== Sys2Proof/Config.lean ====
section
/-! DEFINITION. What is fixed for the machine and never written by an operation (R4, R5, R14), and the free
values: constants with no body, so that no proof can see what they are. The document's numbers for the
constants of R5 stand in Sys2Proof/Machine/Params.lean, one line each. -/

namespace Sys2Proof

/-- The codec's output (R111): a fixed sequence of 5 bytes. -/
structure CardRecord where
  byte0 : Byte
  byte1 : Byte
  byte2 : Byte
  byte3 : Byte
  byte4 : Byte
  deriving DecidableEq, Repr, Inhabited

/-- The constants of R5, one field each, under the document's names. `SEARCH_LIMIT` is computed
from `searchTail` (Machine/Operands.lean). -/
structure Params where
  tIgnoreMax      : Nat
  tShortMin       : Nat
  tShortMax       : Nat
  tLongMin        : Nat
  tLongMax        : Nat
  searchWindow    : Nat
  preambleRun     : Nat
  searchTail      : Nat
  frameBits       : Nat
  decodedCapacity : Nat
  demodSkip       : Nat
  elapsedWidth    : Nat
  deriving DecidableEq, Repr

/-- The capacity of the example configuration of 95_test_vectors.md. `RAW_CAPACITY` itself is an open
parameter (R4, D5): it is a field of `State`, and only `State.reset` uses this number.
PRESUMED (the spec's G1, general knowledge), unsafe: notes/assumptions/1.md. -/
def Config.exampleRawCapacity : Nat := 192

/-- `codecDecode` (R103, R110, U17): the codec `ACQ` calls, a total function of the 8 bytes, otherwise
uninterpreted. Safe: notes/assumptions/2.md. -/
opaque Config.codecDecode : Bits64 → Option CardRecord

/-- The unspecified value `frameStart` takes after a `LOCATE` that did not find a run (R84, D13, U13), drawn by
number. Safe: notes/assumptions/3.md. -/
opaque Config.freeFrameStart : Nat → Nat

/-- The unspecified value `decodedBits` takes after a `DEMOD` that ended with `ManchesterError` (R96, D13, U14),
drawn by number. Safe: notes/assumptions/3.md. -/
opaque Config.freeDecodedBits : Nat → Bits64

/-- The frame the codec's encoder makes of a record whose reserved byte 4 or unused nibble is not zero:
not stated (U1, N15). Safe: notes/assumptions/4.md. -/
opaque Config.freeEncodedFrame : CardRecord → Bits64

end Sys2Proof
end

