-- ==== Sys2Proof/Machine/Params.lean ====
section
/-! DEFINITION. The document's values for the constants of R5 (D23, U23): one record, one line each. -/

namespace Sys2Proof.Machine

/-- R5: the table of constants with the document's values. -/
def params : Params where
  tIgnoreMax      := 47
  tShortMin       := 48
  tShortMax       := 80
  tLongMin        := 81
  tLongMax        := 112
  searchWindow    := 50
  preambleRun     := 10
  searchTail      := 100
  frameBits       := 35
  decodedCapacity := 64
  demodSkip       := 10
  elapsedWidth    := 32

end Sys2Proof.Machine
end

