-- ==== Sys2Proof/Syntax.lean ====
section
/-! DEFINITION. The operations of the block (R52) and the symbols they store and read (R54, R55). -/

namespace Sys2Proof

/-- A symbol code (R54, R55): the value of one 2-bit cell, code 0 to 3 in this order. -/
inductive Symbol where
  | short    -- code 0, the document's symbol 0
  | long     -- code 1, the document's symbol 1
  | invalid  -- code 2, out-of-spec timing
  | corrupt  -- code 3, never produced by the classifier
  deriving DecidableEq, Repr, Inhabited

/-- The six operations, one constructor per row of the opcode table. Operands are natural numbers (R7)
of at most 32 bits (WellFormed), a symbol code is a `Symbol`. -/
inductive Instr where
  | rst
  | append (sym : Symbol)
  | edge (elapsed : Nat)
  | locate (searchStart : Nat)
  | demod (frameStart : Nat)
  | acq
  deriving DecidableEq, Repr, Inhabited

/-- The two agents (R6, R141): the interrupt context and the polling context. -/
inductive Agent where
  | edgeAgent
  | hostAgent
  deriving DecidableEq, Repr

/-- Who issues each operation (R52, R141). Issuing one from the other context is not prevented and changes
nothing in its meaning (D24), so no operation reads this. -/
def Instr.issuer : Instr → Agent
  | .rst      => .hostAgent
  | .append _ => .edgeAgent
  | .edge _   => .edgeAgent
  | .locate _ => .hostAgent
  | .demod _  => .hostAgent
  | .acq      => .hostAgent

end Sys2Proof
end

