-- ==== Sys2Proof/WellFormed.lean ====
section
/-! DEFINITION. Which instructions have a command word: those whose operand fits its field (R51). -/

namespace Sys2Proof

/-- R51: `elapsed`, `searchStart` and `frameStart` are unsigned 32-bit fields (`ELAPSED_WIDTH` of R5 for
`elapsed`). A symbol code fits its two bits by its type. -/
def Instr.wellFormed : Instr → Bool
  | .rst      => true
  | .append _ => true
  | .edge e   => decide (e < 2 ^ Machine.params.elapsedWidth)
  | .locate a => decide (a < 2 ^ 32)
  | .demod a  => decide (a < 2 ^ 32)
  | .acq      => true

/-- The same as a proposition. -/
abbrev Instr.WellFormed (i : Instr) : Prop := i.wellFormed = true

end Sys2Proof
end

