-- ==== Sys2Proof/Decode.lean ====
section
/-! DEFINITION. Command words (R50 to R53): the decoder, total and rejecting by name, and after it the encoder,
both written from the encoding tables of 30_encoding.md. -/

namespace Sys2Proof

/-- The symbol of a 2-bit code (R54). -/
def Symbol.ofCode (c : BitVec 2) : Symbol :=
  if c = 0 then .short else if c = 1 then .long else if c = 2 then .invalid else .corrupt

/-- The 2-bit code of a symbol (R54). -/
def Symbol.code : Symbol → BitVec 2
  | .short => 0
  | .long => 1
  | .invalid => 2
  | .corrupt => 3

/-- Why a word is no command (R53). Both give the one outcome `IllegalCommand`. -/
inductive DecodeError where
  | reservedOp    -- `op` is 0x00 or 0x07 to 0xFF
  | nonzeroArg    -- a bit of `arg` that R51 says must be 0 is 1
  | wrongLength   -- not five bytes (R50); only `decodeBytes` answers it
  deriving DecidableEq, Repr

/-- R50: `op`, bits 39:32. -/
def opField (w : Word) : Byte := w.extractLsb' 32 8

/-- R50: `arg`, bits 31:0. -/
def argField (w : Word) : Arg := w.extractLsb' 0 32

/-- R51: an operation with no operand wants `arg = 0`. -/
def decodeNoOperand (arg : Arg) (i : Instr) : Except DecodeError Instr :=
  if arg = 0 then .ok i else .error .nonzeroArg

/-- R51: `sym` is `arg[1:0]`, and `arg[31:2]` must be 0. -/
def decodeSymOperand (arg : Arg) : Except DecodeError Instr :=
  if arg.extractLsb' 2 30 = 0 then .ok (.append (Symbol.ofCode (arg.extractLsb' 0 2)))
  else .error .nonzeroArg

/-- The opcode map (R52) over the fields of R50; any other `op` is reserved (R53). -/
def decode (w : Word) : Except DecodeError Instr :=
  if opField w = 0x01 then decodeNoOperand (argField w) .rst
  else if opField w = 0x02 then decodeSymOperand (argField w)
  else if opField w = 0x03 then .ok (.edge (argField w).toNat)
  else if opField w = 0x04 then .ok (.locate (argField w).toNat)
  else if opField w = 0x05 then .ok (.demod (argField w).toNat)
  else if opField w = 0x06 then decodeNoOperand (argField w) .acq
  else .error .reservedOp

/-- R50: the word of its five bytes, `op` first, then `arg` most significant byte first. -/
def wordOfBytes (b0 b1 b2 b3 b4 : Byte) : Word := b0 ++ b1 ++ b2 ++ b3 ++ b4

/-- Decoding the five bytes of a command word, in the order of R50. -/
def decodeBytes : List Byte → Except DecodeError Instr
  | [b0, b1, b2, b3, b4] => decode (wordOfBytes b0 b1 b2 b3 b4)
  | _ => .error .wrongLength

/-- The word of an `op` and an `arg` (R50). -/
def encodeFields (op : Byte) (arg : Arg) : Word := op ++ arg

/-- The opcode map (R52). -/
def Instr.opcode : Instr → Byte
  | .rst      => 0x01
  | .append _ => 0x02
  | .edge _   => 0x03
  | .locate _ => 0x04
  | .demod _  => 0x05
  | .acq      => 0x06

/-- The `arg` field of an instruction's word (R51). -/
def Instr.arg : Instr → Arg
  | .rst      => 0
  | .append c => c.code.setWidth 32
  | .edge e   => BitVec.ofNat 32 e
  | .locate a => BitVec.ofNat 32 a
  | .demod a  => BitVec.ofNat 32 a
  | .acq      => 0

/-- The command word of an instruction (R50 to R52). -/
def encode (i : Instr) : Word := encodeFields i.opcode i.arg

/-- The five bytes of a word, first byte first (R50). -/
def bytesOfWord (w : Word) : List Byte :=
  [w.extractLsb' 32 8, w.extractLsb' 24 8, w.extractLsb' 16 8, w.extractLsb' 8 8, w.extractLsb' 0 8]

/-- The word whose bits are `w` as spec/opcode_table.json numbers them. A row's number is the whole 40-bit
command word, bit 39 the most significant of `op` (R50); bits above `nbits` are 0. -/
def tableWord (nbits w : Nat) : Word := BitVec.ofNat 40 (w % 2 ^ nbits)

/-- What the decoder reads from a word given in the opcode table's numbering: its bytes in the order of
R50, decoded. -/
def decodeTableWord (nbits w : Nat) : Option Instr :=
  match decodeBytes (bytesOfWord (tableWord nbits w)) with
  | .ok i => some i
  | .error _ => none

end Sys2Proof
end

