-- ==== Sys2Proof/Machine/State.lean ====
section
/-! DEFINITION. The state of the machine: the four fields of `RawCapture` (R10), and the model's own fields around
them (the capacity parameter, the commands still to come, the outcome handed back, the draw counter). -/

namespace Sys2Proof.Machine

/-- The symbol memory (R18, R30): pairs of a symbol index and the code its cell holds, indices strictly
rising. A cell that is not listed has not been written since initialisation (R21) and has no value. -/
abbrev Memory := List (Nat × Symbol)

/-- What an operation hands back when it ends (R57), with the values handed back. -/
inductive OpOutcome where
  | done
  | stored (code : Symbol) (index : Nat)
  | dropped
  | ignored
  | found (offset : Nat)
  | demodulated (frame : Bits64)
  | success (record : CardRecord)
  | filling
  | invalidTiming
  | noPreamble
  | manchesterError
  | formatReject
  | timeout          -- the host's read procedure only (R104), never an operation
  | notReady
  | illegalCommand
  deriving DecidableEq, Repr

/-- Why the machine stops. Each is an access R31, U20 or R21 ask a model to make a fault "so that a mistaken rule
shows", or the write of an absent cell, which the model treats alike (notes/assumptions/17.md); no operation performs one in a state the machine can reach (Safety.lean). -/
inductive Fault where
  /-- `SymRead` of an index at or above `RAW_CAPACITY` (R31, U20), and `SymWrite` of one (DESIGN CHOICE:
  notes/assumptions/17.md). Raised by `symRead` and `symWrite`. Safe. -/
  | absentCell (index : Nat)
  /-- `SymRead` of a cell nothing has written since initialisation (R21, U10). Raised by `symRead`. Safe. -/
  | unwrittenCell (index : Nat)
  /-- `BitWrite` at a position at or above 64 (U20). Raised by `bitWrite`. Safe. -/
  | absentBit (position : Nat)
  deriving DecidableEq, Repr

/-- Why a command has no meaning in the model. The spec's own refusals `NotReady` and `IllegalCommand` are
outcomes (R57), not these. -/
inductive Refusal where
  /-- An instruction with no meaning yet, by its mnemonic. Raised by `exec`'s arms only; none is left. Safe. -/
  | notModelled (mnemonic : String)
  deriving DecidableEq, Repr

/-- The state. The first four fields after `rawCapacity` are the block's whole architectural state (R10). -/
structure State where
  /-- `RAW_CAPACITY` (R4, R14): the open parameter, in symbols. Configuration; no operation writes it. -/
  rawCapacity : Nat
  /-- `timeline` (R18): the symbol memory. -/
  timeline : Memory
  /-- `writeIndex` (R12): the next free cell. -/
  writeIndex : Nat
  /-- `frameStart` (R13): the symbol index where the located run begins. -/
  frameStart : Nat
  /-- `decodedBits` (R19): bit position 0 is the most significant bit (R33). -/
  decodedBits : Bits64
  /-- The command words still to come, next first: the model's input, chosen by the environment (R6, U16). -/
  input : List Word
  /-- What the last operation that ended handed back (R57); no operation reads it (R23). -/
  outcome : Option OpOutcome
  /-- How many unspecified values have been drawn: the model's own, for `Config.free…`. -/
  freeDraws : Nat
  deriving DecidableEq, Repr

/-- Subsystem initialisation (R21, R150) with a given capacity: `writeIndex = 0`, no cell written.
`frameStart` and `decodedBits` are unspecified there; the zeros are the model's (DESIGN CHOICE, unsafe:
notes/assumptions/5.md). -/
def State.initialised (rawCapacity : Nat) : State where
  rawCapacity := rawCapacity
  timeline := []
  writeIndex := 0
  frameStart := 0
  decodedBits := 0
  input := []
  outcome := none
  freeDraws := 0

/-- The machine right after initialisation, in the example configuration (notes/assumptions/1.md). -/
def State.reset : State := State.initialised Config.exampleRawCapacity

end Sys2Proof.Machine
end

