-- ==== Sys2Proof/Machine/Flags.lean ====
section
/-! DEFINITION. The block's one status flag and the two capture states (R16), both functions of `writeIndex`; and
the numbers of the outcomes (R57). -/

namespace Sys2Proof.Machine

/-- R16: `READY = (writeIndex == RAW_CAPACITY)`, the capacity gate. -/
def State.ready (s : State) : Bool := s.writeIndex == s.rawCapacity

/-- R16: the two states of the acquisition state machine. -/
inductive CaptureState where
  | filling
  | ready
  deriving DecidableEq, Repr

/-- R16: Ready at `writeIndex == RAW_CAPACITY`, Filling otherwise. -/
def State.captureState (s : State) : CaptureState := if s.ready then .ready else .filling

/-- R57: the three kinds of outcome. -/
inductive OutcomeKind where
  | result
  | failure
  | refusal
  deriving DecidableEq, Repr

/-- R57: the code of an outcome. -/
def OpOutcome.code : OpOutcome → Byte
  | .done            => 0x00
  | .stored _ _      => 0x01
  | .dropped         => 0x02
  | .ignored         => 0x03
  | .found _         => 0x04
  | .demodulated _   => 0x05
  | .success _       => 0x06
  | .filling         => 0x07
  | .invalidTiming   => 0x10
  | .noPreamble      => 0x11
  | .manchesterError => 0x12
  | .formatReject    => 0x13
  | .timeout         => 0x14
  | .notReady        => 0x20
  | .illegalCommand  => 0x21

/-- R57: the kind of an outcome. -/
def OpOutcome.kind : OpOutcome → OutcomeKind
  | .done            => .result
  | .stored _ _      => .result
  | .dropped         => .result
  | .ignored         => .result
  | .found _         => .result
  | .demodulated _   => .result
  | .success _       => .result
  | .filling         => .result
  | .invalidTiming   => .failure
  | .noPreamble      => .failure
  | .manchesterError => .failure
  | .formatReject    => .failure
  | .timeout         => .failure
  | .notReady        => .refusal
  | .illegalCommand  => .refusal

end Sys2Proof.Machine
end

