-- ==== Sys2Proof/Machine/Operands.lean ====
section
/-! DEFINITION. What the operations compute from their operands and from the symbols they read: the classifier
(R70), the pair code (R56), the scan range (R81), the first demodulated index (R91), and the bit order of
`decodedBits` (R33). -/

namespace Sys2Proof.Machine

/-- R70: the classification of an elapsed count; `none` is an ignored edge. -/
def classify (elapsed : Nat) : Option Symbol :=
  if elapsed ≤ params.tIgnoreMax then none
  else if elapsed ≤ params.tShortMax then some .short
  else if elapsed ≤ params.tLongMax then some .long
  else some .invalid

/-- R56, R92: the bit a pair of symbols encodes; `none` is a disallowed pair. -/
def pairBit : Symbol → Symbol → Option Bool
  | .short, .long => some false
  | .long, .short => some true
  | _, _ => none

/-- R5, R60: `SEARCH_LIMIT = RAW_CAPACITY − SEARCH_TAIL`, 0 when that would be negative. -/
def searchLimit (rawCapacity : Nat) : Nat := rawCapacity - params.searchTail

/-- R81: the first index `LOCATE` does not examine. -/
def scanEnd (rawCapacity searchStart : Nat) : Nat :=
  min (searchStart + params.searchWindow) (searchLimit rawCapacity)

/-- R91: the index of the first symbol `DEMOD` consumes. -/
def demodStart (frameStart : Nat) : Nat := frameStart + params.demodSkip

/-- R33: the bit at position `k`, position 0 the most significant bit of byte 0. -/
def bitAt (v : Bits64) (k : Nat) : Bool := v.getMsbD k

/-- R33: byte `j` (0 to 7) of the buffer, as the consumer sees it. -/
def byteAt (v : Bits64) (j : Nat) : Byte := v.extractLsb' (56 - 8 * j) 8

/-- R33: the 8 bytes in order. -/
def bytesOf (v : Bits64) : List Byte := (List.range 8).map (byteAt v)

/-- The buffer with bit `b` at position `k` (below 64) and every other bit as it was (R33). -/
def setBitAt (v : Bits64) (k : Nat) (b : Bool) : Bits64 :=
  if b then v ||| BitVec.twoPow 64 (63 - k) else v &&& ~~~ BitVec.twoPow 64 (63 - k)

end Sys2Proof.Machine
end

