-- ==== Sys2Proof/Machine/Ops.lean ====
section
/-! DEFINITION. The named operations over the two memories and the registers (20_memory.md), how an operation ends
(R57), the capture reset (R73, R102), the unspecified values (D13), and the handling of a failed window, which
stands in the place of taking an exception (R138). -/

namespace Sys2Proof.Machine

/-! ### The symbol memory as a list in canonical form -/

/-- The code listed at an index, if one is. -/
def Memory.read : Memory → Nat → Option Symbol
  | [], _ => none
  | (k, c) :: m, a => if k = a then some c else Memory.read m a

/-- The memory with code `c` at index `a` and nothing else changed. -/
def Memory.write : Memory → Nat → Symbol → Memory
  | [], a, c => [(a, c)]
  | (k, d) :: m, a, c =>
    if a < k then (a, c) :: (k, d) :: m
    else if a = k then (a, c) :: m
    else (k, d) :: Memory.write m a c

/-- The canonical form: indices strictly rising. An unlisted cell has no value, so no entry can equal one. -/
abbrev Memory.wf (m : Memory) : Prop := m.Pairwise (fun x y => x.1 < y.1)

/-! ### The access primitives -/

/-- `SymRead(i)` (R31): the code in cell `i`. A cell that does not exist faults (R31, U20), and so does one
nothing has written (R21). -/
def symRead (s : State) (i : Nat) : Except Fault Symbol :=
  if i < s.rawCapacity then
    match s.timeline.read i with
    | some c => .ok c
    | none => .error (.unwrittenCell i)
  else .error (.absentCell i)

/-- `SymWrite(i, c)` (R32): code `c` in cell `i`, nothing else changed. R32 says nothing of a cell that does not exist; here it
faults, as a read of one does (DESIGN CHOICE, safe: notes/assumptions/17.md). -/
def symWrite (s : State) (i : Nat) (c : Symbol) : Except Fault State :=
  if i < s.rawCapacity then .ok { s with timeline := s.timeline.write i c }
  else .error (.absentCell i)

/-- `BitClearAll()` (R33): 0 at all 64 positions. -/
def bitClearAll : Bits64 := 0

/-- `BitWrite(k, b)` (R33): bit `b` at position `k`, no other bit changed. -/
def bitWrite (v : Bits64) (k : Nat) (b : Bool) : Except Fault Bits64 :=
  if k < 64 then .ok (setBitAt v k b) else .error (.absentBit k)

/-! ### How an operation ends -/

/-- The state with an outcome handed back (R57). -/
def State.handBack (s : State) (o : OpOutcome) : State := { s with outcome := some o }

/-- An operation ends with an outcome: `return`, `fail` and `refuse` of R7. A refusal's state is the one the
command found. -/
def endWith (s : State) (o : OpOutcome) : Host.Outcome State Fault Refusal := .next (s.handBack o)

/-- The capture reset (R73, R102, R150): `writeIndex <- 0` and nothing else. -/
def captureReset (s : State) : State := { s with writeIndex := 0 }

/-- An examined window ends (R102, R138): reset the capture, then hand the outcome back. It is what `ACQ` does
with a failure (the place of an exception's entry) and with a success; there is nothing to return
from (R140). -/
def endWindow (s : State) (o : OpOutcome) : Host.Outcome State Fault Refusal := endWith (captureReset s) o

/-! ### Unspecified values (D13) -/

/-- `frameStart <- unspecified` (R84): some value in `0 .. RAW_CAPACITY − 1` (U13). -/
def drawFrameStart (s : State) : State :=
  { s with
    frameStart := Config.freeFrameStart s.freeDraws % s.rawCapacity
    freeDraws := s.freeDraws + 1 }

/-- `decodedBits <- unspecified` (R97): some 64 bits (U14). -/
def drawDecodedBits (s : State) : State :=
  { s with
    decodedBits := Config.freeDecodedBits s.freeDraws
    freeDraws := s.freeDraws + 1 }

end Sys2Proof.Machine
end

