-- ==== Sys2Proof/Machine/Demodulator.lean ====
section
/-! DEFINITION. The Manchester demodulator (42_manchester_demodulator.md): `DEMOD`. -/

namespace Sys2Proof.Machine

/-- The bit of the pair whose first symbol is at index `p` (R91, R92); `none` when the pair is disallowed or,
with no cell read, when it needs a cell that does not exist (R95). -/
def readPair (s : State) (p : Nat) : Except Fault (Option Bool) :=
  if s.rawCapacity ≤ p + 1 then .ok none
  else
    match symRead s p with
    | .error f => .error f
    | .ok a =>
      match symRead s (p + 1) with
      | .error f => .error f
      | .ok b => .ok (pairBit a b)

/-- The loop of R97: `fuel` bits still fit (R94), `n` are produced, `bits` holds them; `base` is the index of the
first pair. `some` is `Demodulated`, `none` is `ManchesterError` (R93). -/
def demodLoop (s : State) (base : Nat) : (fuel n : Nat) → Bits64 → Except Fault (Option Bits64)
  | 0, _, bits => .ok (some bits)
  | fuel + 1, n, bits =>
    match readPair s (base + 2 * n) with
    | .error f => .error f
    | .ok none => if params.frameBits ≤ n then .ok (some bits) else .ok none
    | .ok (some b) =>
      match bitWrite bits n b with
      | .error f => .error f
      | .ok bits1 => demodLoop s base fuel (n + 1) bits1

/-- The whole demodulation of R97, from a cleared buffer. -/
def demodScan (frameStart : Nat) (s : State) : Except Fault (Option Bits64) :=
  demodLoop s (demodStart frameStart) params.decodedCapacity 0 bitClearAll

/-- The demodulate stage (R96, R97), shared by `DEMOD` and `ACQ`: the demodulation, and what it leaves in
`decodedBits`. -/
def demodStage (frameStart : Nat) (s : State) : Except Fault (Option Bits64 × State) :=
  match demodScan frameStart s with
  | .error f => .error f
  | .ok (some bits) => .ok (some bits, { s with decodedBits := bits })
  | .ok none => .ok (none, drawDecodedBits s)

/-- `DEMOD frameStart` (R90 to R97): refused with `NotReady` unless the window is complete. The register
`frameStart` is neither read nor written (R90). -/
def execDemod (frameStart : Nat) (s : State) : Host.Outcome State Fault Refusal :=
  if s.writeIndex ≠ s.rawCapacity then endWith s .notReady
  else
    match demodStage frameStart s with
    | .error f => .fault f
    | .ok (some bits, s1) => endWith s1 (.demodulated bits)
    | .ok (none, s1) => endWith s1 .manchesterError

end Sys2Proof.Machine
end

