-- ==== Sys2Proof/Machine/Locator.lean ====
section
/-! DEFINITION. The preamble locator (41_preamble_locator.md): `LOCATE`. -/

namespace Sys2Proof.Machine

/-- How a scan ends (R82). -/
inductive LocateResult where
  | found (offset : Nat)
  | noPreamble
  | invalidTiming
  deriving DecidableEq, Repr

/-- The run the scan is in (R82): `count` symbols long, begun at `start`, `prev` its last symbol. `start` and
`prev` mean nothing while `count` is 0, and are not read then. -/
structure Run where
  count : Nat
  start : Nat
  prev  : Symbol
  deriving DecidableEq, Repr

/-- No run. -/
def Run.empty : Run := ⟨0, 0, .short⟩

/-- The run after the symbol `sym`, 0 or 1, at index `i` (R82): it goes on when `sym` differs from the one before, and a
new run begins at this symbol otherwise (D9). -/
def Run.extend (r : Run) (i : Nat) (sym : Symbol) : Run :=
  if 0 < r.count ∧ sym ≠ r.prev then ⟨r.count + 1, r.start, sym⟩ else ⟨1, i, sym⟩

/-- The loop of R82: `fuel` symbols are still to be examined, the next at index `i`. -/
def locateLoop (s : State) : (fuel i : Nat) → Run → Except Fault LocateResult
  | 0, _, _ => .ok .noPreamble
  | fuel + 1, i, r =>
    match symRead s i with
    | .error f => .error f
    | .ok .corrupt => .ok .invalidTiming
    | .ok .invalid => locateLoop s fuel (i + 1) { r with count := 0 }
    | .ok sym =>
      if (r.extend i sym).count = params.preambleRun then .ok (.found (r.extend i sym).start)
      else locateLoop s fuel (i + 1) (r.extend i sym)

/-- The scan of R81 and R82: the indices from `searchStart` up to, not including, `scanEnd`. -/
def locateScan (searchStart : Nat) (s : State) : Except Fault LocateResult :=
  locateLoop s (scanEnd s.rawCapacity searchStart - searchStart) searchStart Run.empty

/-- The locate stage (R82, R84), shared by `LOCATE` and `ACQ`: the scan, and what it leaves in `frameStart`. -/
def locateStage (searchStart : Nat) (s : State) : Except Fault (LocateResult × State) :=
  match locateScan searchStart s with
  | .error f => .error f
  | .ok (.found offset) => .ok (.found offset, { s with frameStart := offset })
  | .ok .noPreamble => .ok (.noPreamble, drawFrameStart s)
  | .ok .invalidTiming => .ok (.invalidTiming, drawFrameStart s)

/-- `LOCATE searchStart` (R80 to R84): refused with `NotReady` unless the window is complete. -/
def execLocate (searchStart : Nat) (s : State) : Host.Outcome State Fault Refusal :=
  if s.writeIndex ≠ s.rawCapacity then endWith s .notReady
  else
    match locateStage searchStart s with
    | .error f => .fault f
    | .ok (.found offset, s1) => endWith s1 (.found offset)
    | .ok (.noPreamble, s1) => endWith s1 .noPreamble
    | .ok (.invalidTiming, s1) => endWith s1 .invalidTiming

end Sys2Proof.Machine
end

