-- ==== Sys2Proof/Machine/Acquisition.lean ====
section
/-! DEFINITION. One acquisition attempt (43_acquisition.md): `ACQ`. -/

namespace Sys2Proof.Machine

/-- The codec stage (R103): the published record is the value of the outcome. -/
def codecOutcome : Option CardRecord → OpOutcome
  | none => .formatReject
  | some r => .success r

/-- `ACQ` over a given codec (R100 to R103): the gate, then locate, demodulate and decode, left at the first stage
that does not succeed; every path past the gate ends the window (R102). -/
def acquire (codec : Bits64 → Option CardRecord) (s : State) : Host.Outcome State Fault Refusal :=
  if s.writeIndex ≠ s.rawCapacity then endWith s .filling
  else
    match locateStage 0 s with
    | .error f => .fault f
    | .ok (.invalidTiming, s1) => endWindow s1 .invalidTiming
    | .ok (.noPreamble, s1) => endWindow s1 .noPreamble
    | .ok (.found _, s1) =>
      match demodStage s1.frameStart s1 with
      | .error f => .fault f
      | .ok (none, s2) => endWindow s2 .manchesterError
      | .ok (some _, s2) => endWindow s2 (codecOutcome (codec s2.decodedBits))

/-- `ACQ` (R101), with the codec left uninterpreted (R103, D22). -/
def execAcq (s : State) : Host.Outcome State Fault Refusal := acquire Config.codecDecode s

end Sys2Proof.Machine
end

