-- ==== Sys2Proof/Machine/Capture.lean ====
section
/-! DEFINITION. The capture operations (40_capture.md): `APPEND`, `EDGE` and `RST`. -/

namespace Sys2Proof.Machine

/-- The append of R71, shared by `APPEND` and `EDGE`: drop when Ready, else store at `writeIndex` and then
advance it (R37). -/
def appendSymbol (sym : Symbol) (s : State) : Host.Outcome State Fault Refusal :=
  if s.writeIndex = s.rawCapacity then endWith s .dropped
  else
    match symWrite s s.writeIndex sym with
    | .ok s1 => endWith { s1 with writeIndex := s.writeIndex + 1 } (.stored sym s.writeIndex)
    | .error f => .fault f

/-- `APPEND sym` (R71): the raw symbol port; every 2-bit code may be stored (D15). -/
def execAppend (sym : Symbol) (s : State) : Host.Outcome State Fault Refusal :=
  appendSymbol sym s

/-- `EDGE elapsed` (R72): classify, then append or ignore. -/
def execEdge (elapsed : Nat) (s : State) : Host.Outcome State Fault Refusal :=
  match classify elapsed with
  | none => endWith s .ignored
  | some sym => appendSymbol sym s

/-- `RST` (R73): the capture reset; no cell, `decodedBits` and `frameStart` untouched. -/
def execRst (s : State) : Host.Outcome State Fault Refusal :=
  endWith (captureReset s) .done

end Sys2Proof.Machine
end

