-- ==== Sys2Proof/Machine/Dispatch.lean ====
section
/-! DEFINITION. One arm per instruction. -/

namespace Sys2Proof.Machine

/-- The meaning of an instruction. -/
def exec (i : Instr) (s : State) : Host.Outcome State Fault Refusal :=
  match i with
  | .rst => Sys2Proof.Machine.execRst s
  | .append sym => Sys2Proof.Machine.execAppend sym s
  | .edge elapsed => Sys2Proof.Machine.execEdge elapsed s
  | .locate searchStart => Sys2Proof.Machine.execLocate searchStart s
  | .demod frameStart => Sys2Proof.Machine.execDemod frameStart s
  | .acq => Sys2Proof.Machine.execAcq s

end Sys2Proof.Machine
end

