-- ==== Sys2Proof/Machine/Fetch.lean ====
section
/-! DEFINITION. How a command reaches the block (R6, R50, R53). The block fetches nothing (R15, R41): the words come
from the two agents, in an order the environment chooses, as the list `input`. -/

namespace Sys2Proof.Machine

/-- The next command word, and the state with it taken from the input. -/
def takeCommand (s : State) : Option (Word × State) :=
  match s.input with
  | [] => none
  | w :: rest => some (w, { s with input := rest })

/-- A word R53 rejects: outcome `IllegalCommand`, nothing else changed (R132). -/
def illegalCommand (s : State) : Host.Outcome State Fault Refusal := endWith s .illegalCommand

/-- One command word performed: decode it (decided from the word alone, R136), then run the instruction. -/
def runWord (w : Word) (s : State) : Host.Outcome State Fault Refusal :=
  match decode w with
  | .ok i => exec i s
  | .error _ => illegalCommand s

/-- No command waits: no operation is performed and nothing changes (DEDUCED from R10 and R15, safe:
notes/assumptions/7.md). -/
def idle (s : State) : Host.Outcome State Fault Refusal := .next s

/-- A command word placed before the others. -/
def giveCommand (w : Word) (s : State) : State := { s with input := w :: s.input }

end Sys2Proof.Machine
end

