-- ==== Sys2Proof/Machine/Step.lean ====
section
/-! DEFINITION. One step: the next command word is taken and performed, whole (R8, D19). -/

namespace Sys2Proof.Machine

/-- One step of the machine. -/
def step (s : State) : Host.Outcome State Fault Refusal :=
  match takeCommand s with
  | none => idle s
  | some (w, s1) => runWord w s1

/-- The state with a word, in the opcode table's numbering, as the next command. -/
def State.withFetchWord (s : State) (nbits w : Nat) : State := giveCommand (tableWord nbits w) s

end Sys2Proof.Machine
end

