-- ==== Sys2Proof/Machine/Codec.lean ====
section
/-! DEFINITION. Context: the HID-35 codec as the document's step lists give it (45_context_hid35_codec.md). It is outside the
block (R3); `ACQ` calls the uninterpreted `Config.codecDecode`, never these functions (R110). The two directions do
not agree with each other, and are transcribed as they stand (R120, C8). -/

namespace Sys2Proof.Machine

/-- The number of set bits among the `len` positions from `a` on (R7). -/
def popcountAt (v : Bits64) (a len : Nat) : Nat := (List.range len).countP (fun k => bitAt v (a + k))

/-- The parity of those positions (R7): `popcount mod 2`. -/
def parityAt (v : Bits64) (a len : Nat) : Bool := popcountAt v a len % 2 == 1

/-- R118: the facility code, positions 3 to 14, position 3 most significant. -/
def frameFacility (v : Bits64) : BitVec 12 := v.extractLsb' 49 12

/-- R118: the card number as the decoder reads it, positions 15 to 30. -/
def frameCard (v : Bits64) : BitVec 16 := v.extractLsb' 33 16

/-- R111: the record of a facility code and a card number; the unused nibble and byte 4 are 0. -/
def packRecord (fc : BitVec 12) (cn : BitVec 16) : CardRecord where
  byte0 := fc.extractLsb' 4 8
  byte1 := fc.extractLsb' 0 4 ++ cn.extractLsb' 12 4
  byte2 := cn.extractLsb' 4 8
  byte3 := cn.extractLsb' 0 4 ++ (0 : BitVec 4)
  byte4 := 0

/-- R111: the facility code of a record. -/
def recordFacility (r : CardRecord) : BitVec 12 := r.byte0 ++ r.byte1.extractLsb' 4 4

/-- R111: the card number of a record. -/
def recordCard (r : CardRecord) : BitVec 16 := r.byte1.extractLsb' 0 4 ++ r.byte2 ++ r.byte3.extractLsb' 4 4

/-- R114: header (1,0) at positions 0 and 1. -/
def headerOk (v : Bits64) : Bool := bitAt v 0 && !bitAt v 1

/-- R114: trailer (0,1) at positions 33 and 34. -/
def trailerOk (v : Bits64) : Bool := !bitAt v 33 && bitAt v 34

/-- R115: even-parity check A. -/
def parityAOk (v : Bits64) : Bool := bitAt v 2 == parityAt v 3 12

/-- R116: the odd-parity check, with bit 15 inside its own span. -/
def parityOddOk (v : Bits64) : Bool := parityAt v 15 12 != bitAt v 15

/-- R117: even-parity check B, with bit 31 inside its own span. -/
def parityBOk (v : Bits64) : Bool := bitAt v 31 == parityAt v 31 4

/-- R113 to R118: the decode direction. -/
def hid35Decode (v : Bits64) : Option CardRecord :=
  if headerOk v && trailerOk v && parityAOk v && parityOddOk v && parityBOk v
  then some (packRecord (frameFacility v) (frameCard v)) else none

/-- The parity (`popcount mod 2`) of the bits of a field. -/
def fieldParity {n : Nat} (x : BitVec n) : Bool := (List.range n).countP (fun k => x.getLsbD k) % 2 == 1

/-- R119: the frame of a facility code and a card number, position 0 first:
header, parity, facility code, parity, card number, parity, trailer, and 29 zeros. -/
def encodeFrame (fc : BitVec 12) (cn : BitVec 16) : Bits64 :=
  (0b10 : BitVec 2) ++ BitVec.ofBool (fieldParity fc) ++ fc ++ BitVec.ofBool (!fieldParity (cn.extractLsb' 4 12)) ++ cn
    ++ BitVec.ofBool (fieldParity (cn.extractLsb' 0 3)) ++ (0b01 : BitVec 2) ++ (0 : BitVec 29)

/-- R119: the encode direction. For a record whose unused nibble or byte 4 is not zero the frame is not stated (U1, N15) and is a
free value (notes/assumptions/4.md). -/
def hid35Encode (r : CardRecord) : Bits64 :=
  if r.byte4 = 0 ∧ r.byte3.extractLsb' 0 4 = 0 then encodeFrame (recordFacility r) (recordCard r)
  else Config.freeEncodedFrame r

end Sys2Proof.Machine
end

