-- ==== Sys2Proof/Machine/Pseudo.lean ====
section
/-! DEFINITION. The spec's own shorthand for writing programs down (R58, R59): pseudo-instructions with their
expansion, and the reading of one source line. Nothing of the hardware. -/

namespace Sys2Proof.Machine

/-- An operation or a pseudo-instruction (R59). -/
inductive Pseudo where
  | op (i : Instr)
  | short
  | long
  | noise
  | glitch
  | bit0
  | bit1
  | bits (bs : List Bool)
  deriving DecidableEq, Repr

/-- R59: the two edges of one bit, `BIT0` or `BIT1`. -/
def expandBit (b : Bool) : List Instr := if b then [.edge 96, .edge 64] else [.edge 64, .edge 96]

/-- R59: the expansion table. -/
def Pseudo.expand : Pseudo → List Instr
  | .op i    => [i]
  | .short   => [.edge 64]
  | .long    => [.edge 96]
  | .noise   => [.edge 200]
  | .glitch  => [.edge 20]
  | .bit0    => expandBit false
  | .bit1    => expandBit true
  | .bits bs => bs.flatMap expandBit

/-- A program (R58, R59): lines one after another, and `.rep n` around a body. -/
inductive Asm where
  | done
  | line (p : Pseudo) (rest : Asm)
  | rep (n : Nat) (body rest : Asm)
  deriving DecidableEq, Repr

/-- R59: the commands of a program, `.rep` bodies written out. -/
def Asm.expand : Asm → List Instr
  | .done => []
  | .line p rest => p.expand ++ rest.expand
  | .rep n body rest => (List.replicate n body.expand).flatten ++ rest.expand

/-- R58: the part of a line before a comment. -/
def dropComment : List Char → List Char
  | [] => []
  | c :: cs => if c = ';' then [] else c :: dropComment cs

/-- The words of a line: runs of characters other than blanks; `word` is the one being read. -/
def wordsOf : (word : List Char) → List Char → List (List Char)
  | [], [] => []
  | word, [] => [word]
  | word, c :: cs =>
    if c = ' ' then (if word = [] then wordsOf [] cs else word :: wordsOf [] cs)
    else wordsOf (word ++ [c]) cs

/-- R58: the words of a line before its comment and before the result expected after `=>`. -/
def lineWords (cs : List Char) : List (List Char) :=
  (wordsOf [] (dropComment cs)).takeWhile (fun w => w != ['=', '>'])

/-- The value of a digit in base 10 or 16. -/
def digitVal (base : Nat) (c : Char) : Option Nat :=
  let n := c.toNat
  if 48 ≤ n ∧ n ≤ 57 then some (n - 48)
  else if base = 16 ∧ 97 ≤ n ∧ n ≤ 102 then some (n - 87)
  else if base = 16 ∧ 65 ≤ n ∧ n ≤ 70 then some (n - 55)
  else none

/-- The number a run of digits writes, `acc` being the value so far. -/
def digitsVal (base : Nat) : (acc : Nat) → List Char → Option Nat
  | acc, [] => some acc
  | acc, c :: cs =>
    match digitVal base c with
    | some d => digitsVal base (acc * base + d) cs
    | none => none

/-- R58: a number, decimal or, with `0x`, hexadecimal. -/
def numberOf : List Char → Option Nat
  | [] => none
  | ['0', 'x'] => none
  | '0' :: 'x' :: cs => digitsVal 16 0 cs
  | cs => digitsVal 10 0 cs

/-- R58: the operand of `APPEND`: a code 0 to 3 or a symbol's name. -/
def symbolOf (w : List Char) : Option Symbol :=
  if w = ['s', 'h', 'o', 'r', 't'] then some .short
  else if w = ['l', 'o', 'n', 'g'] then some .long
  else if w = ['i', 'n', 'v', 'a', 'l', 'i', 'd'] then some .invalid
  else if w = ['c', 'o', 'r', 'r', 'u', 'p', 't'] then some .corrupt
  else
    match numberOf w with
    | some 0 => some .short
    | some 1 => some .long
    | some 2 => some .invalid
    | some 3 => some .corrupt
    | _ => none

/-- The bits `BITS` lists. -/
def bitsOf : List (List Char) → Option (List Bool)
  | [] => some []
  | ['0'] :: ws => (bitsOf ws).map (false :: ·)
  | ['1'] :: ws => (bitsOf ws).map (true :: ·)
  | _ :: _ => none

/-- R58, R59: one line's words read as an operation or a pseudo-instruction; `none` is no line of the notation. -/
def pseudoOf : List (List Char) → Option Pseudo
  | [['R', 'S', 'T']] => some (.op .rst)
  | [['A', 'P', 'P', 'E', 'N', 'D'], w] => (symbolOf w).map (fun c => .op (.append c))
  | [['E', 'D', 'G', 'E'], w] => (numberOf w).map (fun n => .op (.edge n))
  | [['L', 'O', 'C', 'A', 'T', 'E'], w] => (numberOf w).map (fun n => .op (.locate n))
  | [['D', 'E', 'M', 'O', 'D'], w] => (numberOf w).map (fun n => .op (.demod n))
  | [['A', 'C', 'Q']] => some (.op .acq)
  | [['S', 'H', 'O', 'R', 'T']] => some .short
  | [['L', 'O', 'N', 'G']] => some .long
  | [['N', 'O', 'I', 'S', 'E']] => some .noise
  | [['G', 'L', 'I', 'T', 'C', 'H']] => some .glitch
  | [['B', 'I', 'T', '0']] => some .bit0
  | [['B', 'I', 'T', '1']] => some .bit1
  | ['B', 'I', 'T', 'S'] :: ws => (bitsOf ws).map .bits
  | _ => none

/-- R58: the reading of one source line. -/
def parseLine (cs : List Char) : Option Pseudo := pseudoOf (lineWords cs)

end Sys2Proof.Machine
end

