-- ==== Sys2Proof/Machine/HostProcedure.lean ====
section
/-! DEFINITION. The host's read procedure `readCard` (R104, R152, R155), the contract the block's user keeps. It is outside
the block; it performs the block's operations and nothing else of its own but the two calls to the carrier driver. -/

namespace Sys2Proof.Machine

/-- A call to the carrier driver (R143); what the driver does is outside the spec. -/
inductive CarrierCall where
  | startCarrier
  | stopCarrier
  deriving DecidableEq, Repr

/-- What the environment does during one read: the elapsed counts of the edges that fall in each stretch (R134, D21), and, by
the number of polls, when the time budget is found to have run out (N12). -/
structure ReadSchedule where
  /-- Edges between the start of the carrier and the first `RST`. -/
  beforeReset : List Nat
  /-- Edges before the first `ACQ`, which is made before the time is tested. -/
  firstPoll : List Nat
  /-- Edges before each further `ACQ`; after the last one the time has elapsed. -/
  laterPolls : List (List Nat)
  /-- Edges between the end of the loop and the stop of the carrier. -/
  afterLoop : List Nat
  deriving DecidableEq, Repr

/-- What a read leaves: the result handed to the caller, the block's state and the calls made to the carrier driver, in order. -/
structure ReadResult where
  result : Option CardRecord
  final  : State
  calls  : List CarrierCall
  deriving DecidableEq, Repr

/-- Go on with the state an operation left, or stop as it stopped. -/
def andThen {α β : Type} (o : Host.Outcome α Fault Refusal) (f : α → Host.Outcome β Fault Refusal) :
    Host.Outcome β Fault Refusal :=
  match o with
  | .next a => f a
  | .fault r => .fault r
  | .refused r => .refused r

/-- The edge agent performs its edges one after another (R134). -/
def performEdges : List Nat → State → Host.Outcome State Fault Refusal
  | [], s => .next s
  | e :: es, s => andThen (exec (.edge e) s) (performEdges es)

/-- A read under way: the block's state, and the calls made to the carrier driver so far, in order. -/
structure HostRun where
  block : State
  calls : List CarrierCall
  deriving DecidableEq, Repr

/-- The procedure calls the carrier driver (R143). -/
def HostRun.call (h : HostRun) (c : CarrierCall) : HostRun := { h with calls := h.calls ++ [c] }

/-- The block goes through some operations; the carrier driver is not called. -/
def HostRun.perform (h : HostRun) (f : State → Host.Outcome State Fault Refusal) : Host.Outcome HostRun Fault Refusal :=
  andThen (f h.block) fun s => .next { h with block := s }

/-- The record of a `Success`; any other outcome hands none to the procedure (R104). -/
def publishedRecord : Option OpOutcome → Option CardRecord
  | some (.success r) => some r
  | _ => none

/-- One turn of the loop of R104: edges, then an `ACQ`. -/
def pollOnce (edges : List Nat) (s : State) : Host.Outcome State Fault Refusal :=
  andThen (performEdges edges s) (exec .acq)

/-- The loop of R104: poll; leave on `Success`; leave when the time has elapsed; otherwise poll again. -/
def pollLoop : (later : List (List Nat)) → (edges : List Nat) → State → Host.Outcome State Fault Refusal
  | [], edges, s => pollOnce edges s
  | es :: later, edges, s =>
    andThen (pollOnce edges s) (fun t =>
      match publishedRecord t.outcome with
      | some _ => .next t
      | none => pollLoop later es t)

/-- `readCard` (R104): start the carrier, `RST`, poll, stop the carrier, `RST` (D20). -/
def readCard (p : ReadSchedule) (s : State) : Host.Outcome ReadResult Fault Refusal :=
  andThen ((HostRun.call ⟨s, []⟩ .startCarrier).perform (performEdges p.beforeReset)) fun h1 =>
  andThen (h1.perform (exec .rst)) fun h2 =>
  andThen (h2.perform (pollLoop p.laterPolls p.firstPoll)) fun h3 =>
  andThen (h3.perform (performEdges p.afterLoop)) fun h4 =>
  andThen ((h4.call .stopCarrier).perform (exec .rst)) fun h5 =>
    .next { result := publishedRecord h3.block.outcome, final := h5.block, calls := h5.calls }

/-- What crosses the public boundary (R139): the record, or `Timeout` (R130), which the caller sees as "not found". -/
def ReadResult.hostOutcome (r : ReadResult) : OpOutcome :=
  match r.result with
  | some record => .success record
  | none => .timeout

end Sys2Proof.Machine
end

