-- ==== Sys2Proof/Safety.lean ====
section
/-! DEFINITION. What the claims are stated in: the invariant of every reachable state (R22), states with no corrupt cell, and
the loop-free reading of `LOCATE` (R83) and of `DEMOD` (R91 to R97). -/

namespace Sys2Proof.Machine

/-- The invariants that hold in every reachable state (R12, R13, R22). -/
structure State.Inv (s : State) : Prop where
  /-- R22 (a). -/
  index_le : s.writeIndex ≤ s.rawCapacity
  /-- The symbol memory keeps its canonical form. -/
  canonical : s.timeline.wf
  /-- Only cells that exist are listed (R18, R30). -/
  cells_exist : ∀ e ∈ s.timeline, e.1 < s.rawCapacity
  /-- R22 (b): every cell below `writeIndex` was written. -/
  written : ∀ k < s.writeIndex, (s.timeline.read k).isSome
  /-- The range of `frameStart` (R10, U13); empty when the capacity is 0. -/
  frame_lt : 0 < s.rawCapacity → s.frameStart < s.rawCapacity

/-- No listed cell holds the code 3: what the classifier alone can leave (R22 (c)). -/
abbrev State.NoCorrupt (s : State) : Prop := ∀ e ∈ s.timeline, e.2 ≠ Symbol.corrupt

/-- A complete window of a reachable state: the gate of R36 is open for the reader. -/
def State.WindowReady (s : State) : Prop := s.Inv ∧ s.writeIndex = s.rawCapacity

/-- The symbol of a cell is 0 or 1. -/
def isBinary (s : State) (i : Nat) : Prop :=
  s.timeline.read i = some .short ∨ s.timeline.read i = some .long

/-- R83: `j` is a hit: ten alternating symbols lie at `j` to `j + 9`, inside the scanned range. -/
def IsHit (s : State) (searchStart j : Nat) : Prop :=
  searchStart ≤ j ∧ j + 9 < scanEnd s.rawCapacity searchStart ∧
  (∀ k < 10, isBinary s (j + k)) ∧
  (∀ k < 9, s.timeline.read (j + k) ≠ s.timeline.read (j + k + 1))

/-- R83: the smallest hit. -/
def FirstHit (s : State) (searchStart j : Nat) : Prop :=
  IsHit s searchStart j ∧ ∀ j' < j, ¬ IsHit s searchStart j'

/-- R83: some cell from `searchStart` up to, not including, `stop` holds the code 3. -/
def CorruptBefore (s : State) (searchStart stop : Nat) : Prop :=
  ∃ c, searchStart ≤ c ∧ c < stop ∧ s.timeline.read c = some .corrupt

/-- R91, R92, R95: the bit pair number `n` after `frameStart` produces; `none` when the pair is disallowed or needs a cell that
does not exist. -/
def pairAt (s : State) (frameStart n : Nat) : Option Bool :=
  if frameStart + 10 + 2 * n + 1 < s.rawCapacity then
    match s.timeline.read (frameStart + 10 + 2 * n), s.timeline.read (frameStart + 10 + 2 * n + 1) with
    | some a, some b => pairBit a b
    | _, _ => none
  else none

/-- R93 to R95: `n` is the number of bits the demodulation produces: the pairs before `n` all decode, and `n` is the capacity
or pair `n` does not decode. -/
def ProducesBits (s : State) (frameStart n : Nat) : Prop :=
  n ≤ 64 ∧ (∀ k < n, (pairAt s frameStart k).isSome) ∧ (n = 64 ∨ pairAt s frameStart n = none)

/-- R96: the buffer holds the bits of the first `n` pairs in order, and zeros after them. -/
def HoldsBits (s : State) (frameStart n : Nat) (v : Bits64) : Prop :=
  ∀ k < 64, bitAt v k = (decide (k < n) && (pairAt s frameStart k == some true))

/-- The operations of the edge agent run one after another (R6, R36). -/
def runOps : List Instr → State → Host.Outcome State Fault Refusal
  | [], s => .next s
  | i :: is, s => andThen (exec i s) (runOps is)

end Sys2Proof.Machine
end

