-- ==== Sys2Proof/Certificates/Slice0/Obligations.lean ====
section
/-! DEFINITION. The statements for the provers. They hold for every capacity: `RAW_CAPACITY` is a field of the state, and only
`ResetLeaves` and `ResetMeetsTheInvariant` speak of `State.reset`, beside every other capacity. A free value (`Config.…`) is never given a value. -/

open Sys2Proof Sys2Proof.Machine

/-! ### Command words -/

/-- The words E1 to E9 of 95_test_vectors.md section 2.2, numbered as the opcode table numbers them, decode as the spec says. -/
def Obligations.TableWordsDecode : Prop :=
  decodeTableWord 40 0x0100000000 = some .rst ∧
  decodeTableWord 40 0x0200000003 = some (.append .corrupt) ∧
  decodeTableWord 40 0x0300000040 = some (.edge 64) ∧
  decodeTableWord 40 0x04FFFFFFFF = some (.locate 4294967295) ∧
  decodeTableWord 40 0x0500000001 = some (.demod 1) ∧
  decodeTableWord 40 0x0600000000 = some .acq ∧
  decodeTableWord 40 0x0200000004 = none ∧
  decodeTableWord 40 0x0100000001 = none ∧
  decodeTableWord 40 0x0680000000 = none ∧
  decodeTableWord 40 0x0000000000 = none ∧
  decodeTableWord 40 0x0700000000 = none ∧
  decodeTableWord 40 0xFF00000000 = none

/-- R50 to R52: decoding the word of a well-formed instruction gives it back, with every operand at every value. -/
def Obligations.DecodeOfEncode : Prop :=
  ∀ i : Instr, i.WellFormed → decode (encode i) = .ok i

/-- R50 to R53: an instruction a word decodes to is well-formed, and that word encodes it. -/
def Obligations.EncodeOfDecode : Prop :=
  ∀ (w : Word) (i : Instr), decode w = .ok i → i.WellFormed ∧ encode i = w

/-- R53: a word is refused exactly when its `op` is 0x00 or 0x07 to 0xFF, or it has a 1 where R51 wants a 0. -/
def Obligations.IllegalWordsExactly : Prop :=
  ∀ w : Word, (∃ e, decode w = .error e) ↔
    (opField w = 0x00 ∨ 0x07 ≤ (opField w).toNat ∨
     ((opField w = 0x01 ∨ opField w = 0x06) ∧ argField w ≠ 0) ∨
     (opField w = 0x02 ∧ 4 ≤ (argField w).toNat))

/-- R50: as five bytes a word is `op` first, then `arg` most significant byte first; a list of another length is refused. -/
def Obligations.BytesOpFirst : Prop :=
  (∀ b0 b1 b2 b3 b4 : Byte,
    opField (wordOfBytes b0 b1 b2 b3 b4) = b0 ∧
    (argField (wordOfBytes b0 b1 b2 b3 b4)).toNat =
      b1.toNat * 2 ^ 24 + b2.toNat * 2 ^ 16 + b3.toNat * 2 ^ 8 + b4.toNat ∧
    decodeBytes [b0, b1, b2, b3, b4] = decode (wordOfBytes b0 b1 b2 b3 b4)) ∧
  (∀ bs : List Byte, bs.length ≠ 5 → decodeBytes bs = .error .wrongLength)

/-! ### A step -/

/-- A step performs exactly the instruction the next command word decodes to (R8, R50, R52). That the words of both agents stand in
one list, and that a step takes its head, is the model's choice (notes/assumptions/8.md). -/
def Obligations.StepRunsDecodedCommand : Prop :=
  ∀ (s : State) (w : Word) (rest : List Word) (i : Instr),
    s.input = w :: rest → decode w = .ok i → step s = exec i { s with input := rest }

/-- R53, R132: a word that is no command ends with `IllegalCommand` and changes no state. That the refused word leaves the list of
command words, as any other does, is the model's choice (notes/assumptions/8.md). -/
def Obligations.StepOnIllegalCommand : Prop :=
  ∀ (s : State) (w : Word) (rest : List Word) (e : DecodeError),
    s.input = w :: rest → decode w = .error e →
      step s = .next { s with input := rest, outcome := some .illegalCommand }

/-- With no command waiting a step changes nothing. This is the model's choice (notes/assumptions/7.md). -/
def Obligations.StepWithoutCommand : Prop :=
  ∀ s : State, s.input = [] → step s = .next s

/-! ### The classifier and the capture operations -/

/-- R70: the four bands, which cover every count and give never the code 3. -/
def Obligations.ClassifyBands : Prop :=
  ∀ e : Nat,
    (e ≤ 47 → classify e = none) ∧
    (48 ≤ e → e ≤ 80 → classify e = some .short) ∧
    (81 ≤ e → e ≤ 112 → classify e = some .long) ∧
    (113 ≤ e → classify e = some .invalid) ∧
    classify e ≠ some .corrupt

/-- R71: an append in the state Filling stores the code in cell `writeIndex`, whatever the code, and advances the index. -/
def Obligations.AppendStores : Prop :=
  ∀ (sym : Symbol) (s : State), s.writeIndex < s.rawCapacity →
    exec (.append sym) s = .next
      { s with
        timeline := s.timeline.write s.writeIndex sym
        writeIndex := s.writeIndex + 1
        outcome := some (.stored sym s.writeIndex) }

/-- R71: an append in the state Ready is dropped and changes nothing, with capacity 0 too. -/
def Obligations.AppendDropped : Prop :=
  ∀ (sym : Symbol) (s : State), s.writeIndex = s.rawCapacity →
    exec (.append sym) s = .next { s with outcome := some .dropped }

/-- R72: an edge that classifies to nothing is ignored in every state; any other performs the append of its symbol, which in
the states of the index's range stores or drops. -/
def Obligations.EdgeClassifiesAndAppends : Prop :=
  ∀ (e : Nat) (s : State),
    (classify e = none → exec (.edge e) s = .next { s with outcome := some .ignored }) ∧
    (∀ sym, classify e = some sym → s.writeIndex < s.rawCapacity →
      exec (.edge e) s = .next
        { s with
          timeline := s.timeline.write s.writeIndex sym
          writeIndex := s.writeIndex + 1
          outcome := some (.stored sym s.writeIndex) }) ∧
    (∀ sym, classify e = some sym → s.writeIndex = s.rawCapacity →
      exec (.edge e) s = .next { s with outcome := some .dropped })

/-- R73: `RST` clears `writeIndex` and changes nothing else, in every state. -/
def Obligations.RstClearsIndexOnly : Prop :=
  ∀ s : State, exec .rst s = .next { s with writeIndex := 0, outcome := some .done }

/-- R31, R32: a stored code is read back, and no other cell changes. A read of a cell that does not exist faults (R31, U20); that a
write of one faults too is the model's choice (notes/assumptions/17.md). -/
def Obligations.SymbolMemoryReadsBack : Prop :=
  ∀ (s : State) (i : Nat) (c : Symbol),
    (i < s.rawCapacity → ∃ t, symWrite s i c = .ok t ∧
      ∀ j, symRead t j = if j = i then .ok c else symRead s j) ∧
    (s.rawCapacity ≤ i → symRead s i = .error (.absentCell i) ∧ symWrite s i c = .error (.absentCell i))

/-- R22 (b), R36 (b): symbols appended one after another from `writeIndex = 0` land in the cells in order, and the cells above
them keep what they held. -/
def Obligations.AppendsFillInOrder : Prop :=
  ∀ (s : State) (syms : List Symbol), s.writeIndex = 0 → syms.length ≤ s.rawCapacity →
    ∃ t, runOps (syms.map .append) s = .next t ∧ t.writeIndex = syms.length ∧
      (∀ k, k < syms.length → t.timeline.read k = syms[k]?) ∧
      (∀ k, syms.length ≤ k → t.timeline.read k = s.timeline.read k)

/-- R36 (b): while the window is Ready nothing the edge agent does, however often, changes a cell, the index or any other
architectural state. -/
def Obligations.ReadyGateHoldsWriter : Prop :=
  ∀ (s : State) (is : List Instr), s.writeIndex = s.rawCapacity → (∀ i ∈ is, i.issuer = .edgeAgent) →
    ∃ t, runOps is s = .next t ∧ t.timeline = s.timeline ∧ t.writeIndex = s.writeIndex ∧
      t.frameStart = s.frameStart ∧ t.decodedBits = s.decodedBits ∧ t.rawCapacity = s.rawCapacity

/-! ### The gate in front of the reading operations -/

/-- R80, R90, R132: `LOCATE` and `DEMOD` on an incomplete window are refused with `NotReady` and change no state. -/
def Obligations.ReadersRefusedWhileFilling : Prop :=
  ∀ (s : State) (a : Nat), s.writeIndex < s.rawCapacity →
    exec (.locate a) s = .next { s with outcome := some .notReady } ∧
    exec (.demod a) s = .next { s with outcome := some .notReady }

/-- R100: `ACQ` is the word `op = 0x06`, `arg = 0`; on an incomplete window it ends with `Filling` and changes no state, so the
index is not reset. -/
def Obligations.AcqWhileFilling : Prop :=
  decode (encodeFields 0x06 0) = .ok .acq ∧
  ∀ s : State, s.writeIndex < s.rawCapacity → exec .acq s = .next { s with outcome := some .filling }

/-! ### The locator -/

/-- R83: the loop of R82 and the loop-free statement agree. On a complete window of a reachable state `LOCATE` ends with
`InvalidTiming`, `Found` of the smallest hit or `NoPreamble`, by where the first hit and the corrupt cells lie, and leaves in
`frameStart` the offset or an unspecified value. -/
def Obligations.LocateFindsFirstHit : Prop :=
  ∀ (s : State) (ss : Nat), s.WindowReady →
    (∀ j, FirstHit s ss j →
      (CorruptBefore s ss (j + 10) →
        exec (.locate ss) s = .next ((drawFrameStart s).handBack .invalidTiming)) ∧
      (¬ CorruptBefore s ss (j + 10) →
        exec (.locate ss) s = .next { s with frameStart := j, outcome := some (.found j) })) ∧
    ((∀ j, ¬ IsHit s ss j) →
      (CorruptBefore s ss (scanEnd s.rawCapacity ss) →
        exec (.locate ss) s = .next ((drawFrameStart s).handBack .invalidTiming)) ∧
      (¬ CorruptBefore s ss (scanEnd s.rawCapacity ss) →
        exec (.locate ss) s = .next ((drawFrameStart s).handBack .noPreamble)))

/-- R81, R85: two complete windows that agree on `searchStart .. scanEnd − 1` give one outcome of `LOCATE`, whatever their other
cells hold. -/
def Obligations.LocateReadsOnlyItsRange : Prop :=
  ∀ (s t s' t' : State) (ss : Nat),
    s.writeIndex = s.rawCapacity → t.writeIndex = t.rawCapacity → s.rawCapacity = t.rawCapacity →
    (∀ k, ss ≤ k → k < min (ss + 50) (s.rawCapacity - 100) → s.timeline.read k = t.timeline.read k) →
    exec (.locate ss) s = .next s' → exec (.locate ss) t = .next t' → s'.outcome = t'.outcome

/-- R13, R84: the offset found lies between `searchStart` and `scanEnd − 10` and in the range of the register, and its run is ten
alternating symbols; with an empty range (R85) nothing is found. -/
def Obligations.FoundOffsetInRange : Prop :=
  ∀ (s t : State) (ss off : Nat), s.writeIndex = s.rawCapacity →
    exec (.locate ss) s = .next t → t.outcome = some (.found off) →
      t.frameStart = off ∧ ss ≤ off ∧ off + 10 ≤ min (ss + 50) (s.rawCapacity - 100) ∧ off < s.rawCapacity ∧
      ∀ k < 9, (s.timeline.read (off + k) = some .short ∧ s.timeline.read (off + k + 1) = some .long) ∨
        (s.timeline.read (off + k) = some .long ∧ s.timeline.read (off + k + 1) = some .short)

/-- R54, R55, R131: only the code 3 gives `InvalidTiming`, and only `APPEND 3` puts it in a cell: a memory without it stays so
under every other instruction, and no instruction then ends with `InvalidTiming`. -/
def Obligations.InvalidTimingNeedsCorrupt : Prop :=
  ∀ (i : Instr) (s t : State), s.NoCorrupt → i ≠ .append .corrupt → exec i s = .next t →
    t.NoCorrupt ∧ t.outcome ≠ some .invalidTiming

/-! ### The demodulator -/

/-- R56, R92: exactly the pairs (0,1) and (1,0) decode, to 0 and to 1, and the bit is the first symbol. -/
def Obligations.PairMapping : Prop :=
  ∀ (a b : Symbol) (x : Bool), pairBit a b = some x ↔
    (a = .short ∧ b = .long ∧ x = false) ∨ (a = .long ∧ b = .short ∧ x = true)

/-- R91 to R97: on a complete window of a reachable state some number `n` of bits is produced, and only one; `DEMOD` ends with
`Demodulated`, the buffer holding them and zeros after them, when `n ≥ 35`, and with `ManchesterError` and an unspecified buffer
when `n < 35`. -/
def Obligations.DemodProducesFrame : Prop :=
  ∀ (s : State) (fs : Nat), s.WindowReady →
    ∃ n, ProducesBits s fs n ∧ (∀ m, ProducesBits s fs m → m = n) ∧
      (35 ≤ n → ∃ v, HoldsBits s fs n v ∧
        exec (.demod fs) s = .next { s with decodedBits := v, outcome := some (.demodulated v) }) ∧
      (n < 35 → exec (.demod fs) s = .next ((drawDecodedBits s).handBack .manchesterError))

/-- R91, R92, R93, R96: when the pairs before pair `n`, counted from symbol `frameStart + 10`, decode and pair `n` exists and is
disallowed, the operation ends with success if at least 35 bits have been produced, the buffer holding those, no bit of pair `n`
and zeros after them, and with `ManchesterError` otherwise. (That the pairs begin at `frameStart + 10` and that the code 3 is
disallowed are decisions the spec marks as its own, D10 and D8.) -/
def Obligations.DisallowedPairEndsFrame : Prop :=
  ∀ (s : State) (fs n : Nat) (a b : Symbol), s.WindowReady → n < 64 →
    (∀ k < n, (pairAt s fs k).isSome) →
    fs + 10 + 2 * n + 1 < s.rawCapacity →
    s.timeline.read (fs + 10 + 2 * n) = some a → s.timeline.read (fs + 10 + 2 * n + 1) = some b →
    ¬ (a = .short ∧ b = .long) → ¬ (a = .long ∧ b = .short) →
    ∃ t, exec (.demod fs) s = .next t ∧
      (35 ≤ n → HoldsBits s fs n t.decodedBits ∧ t.outcome = some (.demodulated t.decodedBits)) ∧
      (n < 35 → t.outcome = some .manchesterError)

/-- R90, R91, R97, R98: two complete windows that agree on the 128 cells from `frameStart + 10` on give one outcome of `DEMOD`,
whatever stands before (no preamble is verified) and after, and whatever the register `frameStart` holds. -/
def Obligations.DemodReadsOnlyItsPairs : Prop :=
  ∀ (s t s' t' : State) (fs : Nat),
    s.writeIndex = s.rawCapacity → t.writeIndex = t.rawCapacity → s.rawCapacity = t.rawCapacity →
    (∀ k, fs + 10 ≤ k → k < fs + 138 → s.timeline.read k = t.timeline.read k) →
    exec (.demod fs) s = .next s' → exec (.demod fs) t = .next t' → s'.outcome = t'.outcome

/-- R33: position `k` is bit `7 − (k mod 8)` of byte `k div 8`; `BitWrite` changes the one position, `BitClearAll` clears all; the
spec's sixteen-bit example gives the bytes 0x80 0xF7. U20: a `BitWrite` at a position above 63 faults. -/
def Obligations.BitOrderOfBuffer : Prop :=
  (∀ (v : Bits64) (k : Nat), k < 64 → (byteAt v (k / 8)).getLsbD (7 - k % 8) = bitAt v k) ∧
  (∀ k, bitAt bitClearAll k = false) ∧
  (∀ (v : Bits64) (k : Nat) (b : Bool), k < 64 →
    ∃ v1, bitWrite v k b = .ok v1 ∧ ∀ j < 64, bitAt v1 j = if j = k then b else bitAt v j) ∧
  (∀ (v : Bits64) (k : Nat) (b : Bool), 64 ≤ k → bitWrite v k b = .error (.absentBit k)) ∧
  (∀ v : Bits64, (∀ k < 16, bitAt v k = [true, false, false, false, false, false, false, false,
      true, true, true, true, false, true, true, true].getD k false) → byteAt v 0 = 0x80 ∧ byteAt v 1 = 0xF7)

/-- R39: running `LOCATE` or `DEMOD` again on the same window gives the same outcome and, where the first run drew no unspecified
value, the same state. R39 itself makes no exception: that a failed run leaves a value unspecified is R84 and R96 (D13), and that
the model draws it anew by a counter, `freeDraws`, is notes/assumptions/3.md. -/
def Obligations.RescanGivesTheSame : Prop :=
  ∀ (i : Instr) (s t : State), s.writeIndex = s.rawCapacity →
    ((∃ a, i = .locate a) ∨ (∃ a, i = .demod a)) → exec i s = .next t →
    ∃ u, exec i t = .next u ∧ u.outcome = t.outcome ∧ u.timeline = s.timeline ∧
      (t.freeDraws = s.freeDraws → u = t)

/-! ### One acquisition attempt -/

/-- R101, R102, R103: on a complete window `ACQ` is `LOCATE 0`, then `DEMOD` of the register, then the codec, left at the first
stage that fails; its state is that stage's with `writeIndex` cleared. Said for every codec (D22); `ACQ` runs with the
uninterpreted one. -/
def Obligations.AcqChainsTheStages : Prop :=
  (∀ s : State, exec .acq s = acquire Config.codecDecode s) ∧
  ∀ (codec : Bits64 → Option CardRecord) (s t : State), s.WindowReady → exec (.locate 0) s = .next t →
    (t.outcome = some .invalidTiming ∨ t.outcome = some .noPreamble →
      acquire codec s = .next { t with writeIndex := 0 }) ∧
    (∀ off u, t.outcome = some (.found off) → exec (.demod t.frameStart) t = .next u →
      (u.outcome = some .manchesterError → acquire codec s = .next { u with writeIndex := 0 }) ∧
      (∀ v, u.outcome = some (.demodulated v) →
        (codec v = none → acquire codec s = .next { u with writeIndex := 0, outcome := some .formatReject }) ∧
        (∀ r, codec v = some r →
          acquire codec s = .next { u with writeIndex := 0, outcome := some (.success r) })))

/-- R102: every `ACQ` on a complete window of a reachable state ends with `writeIndex = 0`, one of the five outcomes, and every
cell as it was. -/
def Obligations.AcqEndsTheWindow : Prop :=
  ∀ s : State, s.WindowReady → ∃ t, exec .acq s = .next t ∧ t.writeIndex = 0 ∧ t.timeline = s.timeline ∧
    (t.outcome = some .invalidTiming ∨ t.outcome = some .noPreamble ∨ t.outcome = some .manchesterError ∨
     t.outcome = some .formatReject ∨ ∃ r, t.outcome = some (.success r))

/-- R103 (corner cases): a second `ACQ` with no edge between finds the window empty. -/
def Obligations.SecondAcqFindsFilling : Prop :=
  ∀ s t : State, 0 < s.rawCapacity → s.writeIndex = s.rawCapacity → exec .acq s = .next t →
    exec .acq t = .next { t with outcome := some .filling }

/-- R4: an `ACQ` can succeed, whatever the codec, only when the capacity is at least 110, and only with a record the codec gave
for the buffer left in `decodedBits`. -/
def Obligations.SuccessNeedsRoomAndCodec : Prop :=
  (∀ s : State, exec .acq s = acquire Config.codecDecode s) ∧
  ∀ (codec : Bits64 → Option CardRecord) (s t : State) (r : CardRecord),
    acquire codec s = .next t → t.outcome = some (.success r) →
      110 ≤ s.rawCapacity ∧ codec t.decodedBits = some r

/-! ### Frames, flags and outcomes -/

/-- R141, R13, R19: what the edge agent's operations leave unchanged: everything but the cell at `writeIndex` and the index,
which only advances, and only when the cell was stored. -/
def Obligations.EdgeAgentFrame : Prop :=
  ∀ (i : Instr) (s t : State), i.issuer = .edgeAgent → exec i s = .next t →
    t.rawCapacity = s.rawCapacity ∧ t.frameStart = s.frameStart ∧ t.decodedBits = s.decodedBits ∧
    t.input = s.input ∧ t.freeDraws = s.freeDraws ∧
    (∀ a, a ≠ s.writeIndex → t.timeline.read a = s.timeline.read a) ∧
    ((t.writeIndex = s.writeIndex ∧ t.timeline = s.timeline) ∨
     (t.writeIndex = s.writeIndex + 1 ∧ s.writeIndex < s.rawCapacity ∧
      ∃ sym, t.outcome = some (.stored sym s.writeIndex) ∧ t.timeline.read s.writeIndex = some sym))

/-- R141, R73, R84, R97, R102: what the host agent's operations leave unchanged: no cell of `timeline` ever; `RST` keeps
`frameStart` and `decodedBits`; `LOCATE` keeps the index and `decodedBits`; `DEMOD` keeps the index and `frameStart`; `ACQ` before
its gate keeps them all. -/
def Obligations.HostAgentFrame : Prop :=
  ∀ (i : Instr) (s t : State), i.issuer = .hostAgent → exec i s = .next t →
    t.rawCapacity = s.rawCapacity ∧ t.timeline = s.timeline ∧ t.input = s.input ∧
    (i = .rst → t.frameStart = s.frameStart ∧ t.decodedBits = s.decodedBits ∧ t.freeDraws = s.freeDraws) ∧
    (∀ a, i = .locate a → t.writeIndex = s.writeIndex ∧ t.decodedBits = s.decodedBits) ∧
    (∀ a, i = .demod a → t.writeIndex = s.writeIndex ∧ t.frameStart = s.frameStart) ∧
    (i = .acq → s.writeIndex ≠ s.rawCapacity → t = { s with outcome := some .filling })

/-- R16: from a state that meets the invariant `READY` is set only by the append that stores the last cell; from any state it is
cleared only by `RST` and by the end of an `ACQ`. -/
def Obligations.ReadyFlagChanges : Prop :=
  ∀ (i : Instr) (s t : State), exec i s = .next t →
    (s.Inv → s.ready = false → t.ready = true →
      i.issuer = .edgeAgent ∧ s.writeIndex + 1 = s.rawCapacity ∧ ∃ sym, t.outcome = some (.stored sym s.writeIndex)) ∧
    (s.ready = true → t.ready = false → i = .rst ∨ i = .acq)

/-- R57, R130: each operation ends with one of the outcomes the table gives it, and none with `Timeout` or
`IllegalCommand`. -/
def Obligations.OutcomesOfEachOperation : Prop :=
  ∀ (i : Instr) (s t : State), exec i s = .next t → ∃ o, t.outcome = some o ∧
    match i with
    | .rst => o = .done
    | .append sym => o = .stored sym s.writeIndex ∨ o = .dropped
    | .edge _ => (∃ sym, o = .stored sym s.writeIndex) ∨ o = .dropped ∨ o = .ignored
    | .locate _ => (∃ a, o = .found a) ∨ o = .noPreamble ∨ o = .invalidTiming ∨ o = .notReady
    | .demod _ => o = .demodulated t.decodedBits ∨ o = .manchesterError ∨ o = .notReady
    | .acq => (∃ r, o = .success r) ∨ o = .filling ∨ o = .invalidTiming ∨ o = .noPreamble ∨
        o = .manchesterError ∨ o = .formatReject

/-- R57: the number of each outcome, whatever values it hands back; and that the numbers below 0x08 are the results, 0x10 to 0x14
the failures and 0x20 and 0x21 the refusals. -/
def Obligations.OutcomeNumbers : Prop :=
  OpOutcome.done.code = 0x00 ∧
  (∀ sym index, (OpOutcome.stored sym index).code = 0x01) ∧
  OpOutcome.dropped.code = 0x02 ∧
  OpOutcome.ignored.code = 0x03 ∧
  (∀ offset, (OpOutcome.found offset).code = 0x04) ∧
  (∀ frame, (OpOutcome.demodulated frame).code = 0x05) ∧
  (∀ record, (OpOutcome.success record).code = 0x06) ∧
  OpOutcome.filling.code = 0x07 ∧
  OpOutcome.invalidTiming.code = 0x10 ∧
  OpOutcome.noPreamble.code = 0x11 ∧
  OpOutcome.manchesterError.code = 0x12 ∧
  OpOutcome.formatReject.code = 0x13 ∧
  OpOutcome.timeout.code = 0x14 ∧
  OpOutcome.notReady.code = 0x20 ∧
  OpOutcome.illegalCommand.code = 0x21 ∧
  ∀ o : OpOutcome,
    (o.kind = .result ↔ o.code.toNat < 0x08) ∧
    (o.kind = .failure ↔ 0x10 ≤ o.code.toNat ∧ o.code.toNat ≤ 0x14) ∧
    (o.kind = .refusal ↔ o.code.toNat = 0x20 ∨ o.code.toNat = 0x21)

/-! ### Reset and invariants -/

/-- R21, R150: after initialisation `writeIndex` is 0 and the block is Filling unless the capacity is 0. (The table's unspecified
fields are not spoken of; the model's values for them are notes/assumptions/5.md.) -/
def Obligations.ResetLeaves : Prop :=
  State.reset.writeIndex = 0 ∧
  ∀ cap : Nat, (State.initialised cap).writeIndex = 0 ∧ (State.initialised cap).rawCapacity = cap ∧
    (0 < cap → (State.initialised cap).ready = false ∧ (State.initialised cap).captureState = .filling)

/-- The invariant of R22 holds after initialisation, at every capacity. -/
def Obligations.ResetMeetsTheInvariant : Prop :=
  State.reset.Inv ∧ ∀ cap : Nat, (State.initialised cap).Inv

/-- R12, R13, R14, R18, R22: every step keeps the invariant, and the capacity. -/
def Obligations.StepKeepsTheInvariant : Prop :=
  ∀ s t : State, s.Inv → step s = .next t → t.Inv ∧ t.rawCapacity = s.rawCapacity

/-- R133, 93_implementation_defined.md ("every operation in every state with every operand has an outcome"): in a state that
meets the invariant no step stops, whatever the command word, so no run of any length does. -/
def Obligations.NoStepStops : Prop :=
  (∀ s : State, s.Inv → ∃ t, step s = .next t) ∧
  (∀ (s : State) (n : Nat), s.Inv → ∃ t, Sys2Proof.core.run n s = .next t)

/-! ### The host's read procedure, and the context -/

/-- R104, R155: from a state that meets the invariant a read completes on every schedule, with the carrier started once and then
stopped once and the capture state reset. What a schedule is (edges before the first `RST`, before each `ACQ` and after the loop;
the time tested after each `ACQ`; no edge between the stop of the carrier and the last `RST`) is the model's choice
(notes/assumptions/13.md). -/
def Obligations.ReadCardTearsDown : Prop :=
  ∀ (p : ReadSchedule) (s : State), s.Inv → ∃ r, readCard p s = .next r ∧
    r.calls = [.startCarrier, .stopCarrier] ∧ r.final.writeIndex = 0 ∧ r.final.rawCapacity = s.rawCapacity

/-- The document's timeout scenario (95_test_vectors.md S3, P5): with no edges ever delivered a read finds nothing, however often
it polls. That it polls at least once, and tests the time after each `ACQ`, is the model's choice (notes/assumptions/13.md). -/
def Obligations.ReadWithoutEdges : Prop :=
  ∀ (n : Nat) (s : State), s.Inv →
    ∃ r, readCard { beforeReset := [], firstPoll := [], laterPolls := List.replicate n [], afterLoop := [] } s = .next r ∧
      r.result = none ∧ r.hostOutcome = .timeout

/-- R59, R92: the two edges of `BIT0` and `BIT1` are classified to the pair that encodes the bit. -/
def Obligations.BitEdgesEncodeTheBit : Prop :=
  ∀ b : Bool, ∃ e1 e2 a1 a2, expandBit b = [.edge e1, .edge e2] ∧
    classify e1 = some a1 ∧ classify e2 = some a2 ∧ pairBit a1 a2 = some b

/-- R121 ("rejection completeness") and R112: the context's decoder rejects every frame whose header is not (1,0) or whose trailer
is not (0,1), and positions 35 to 63 do not influence it. -/
def Obligations.CodecReadsTheFrame : Prop :=
  (∀ v : Bits64, ¬ (bitAt v 0 = true ∧ bitAt v 1 = false) ∨ ¬ (bitAt v 33 = false ∧ bitAt v 34 = true) →
    hid35Decode v = none) ∧
  (∀ v w : Bits64, (∀ k < 35, bitAt v k = bitAt w k) → hid35Decode v = hid35Decode w)

/-- R120: the two step lists of the context are inverse only for the card number 65535, for every facility code. -/
def Obligations.CodecRoundTripOnlyAllOnes : Prop :=
  ∀ (fc : BitVec 12) (cn : BitVec 16),
    hid35Decode (hid35Encode (packRecord fc cn)) = some (packRecord fc cn) ↔ cn = 65535
end

