-- ==== Sys2Proof/Laws/Encoding.lean ====
section
/-! SUPPORT. The fields of a word built from fields, and the two directions of the symbol code. -/

namespace Sys2Proof

/-- R54: the code of a symbol gives the symbol back. -/
@[simp] theorem Symbol.ofCode_code (c : Symbol) : Symbol.ofCode c.code = c := by
  cases c <;> decide

/-- R54: every 2-bit code is the code of its symbol. -/
@[simp] theorem Symbol.code_ofCode (c : BitVec 2) : (Symbol.ofCode c).code = c := by
  revert c
  decide

/-- R50: the bits of a word built from fields. -/
theorem encodeFields_getLsbD (op : Byte) (arg : Arg) (i : Nat) :
    (encodeFields op arg).getLsbD i = if i < 32 then arg.getLsbD i else op.getLsbD (i - 32) :=
  BitVec.getLsbD_append

/-- R50: the `op` of a word built from fields. -/
@[simp] theorem opField_encodeFields (op : Byte) (arg : Arg) : opField (encodeFields op arg) = op := by
  apply BitVec.eq_of_getLsbD_eq
  intro i hi
  simp [opField, encodeFields_getLsbD, hi]

/-- R50: the `arg` of a word built from fields. -/
@[simp] theorem argField_encodeFields (op : Byte) (arg : Arg) : argField (encodeFields op arg) = arg := by
  apply BitVec.eq_of_getLsbD_eq
  intro i hi
  simp [argField, encodeFields_getLsbD, hi]

/-- R50: a word is its two fields. -/
theorem encodeFields_fields (w : Word) : encodeFields (opField w) (argField w) = w := by
  apply BitVec.eq_of_getLsbD_eq
  intro i hi
  rw [encodeFields_getLsbD]
  split
  · simp_all [argField]
  · have h : i - 32 < 8 := by omega
    have h32 : 32 + (i - 32) = i := by omega
    simp [opField, h, h32]

/-- R51: the symbol field of an `arg` built from a code, and the zeros above it. -/
theorem symField_setWidth (c : BitVec 2) :
    (c.setWidth 32).extractLsb' 2 30 = 0 ∧ (c.setWidth 32).extractLsb' 0 2 = c := by
  revert c
  decide

/-- R50: the bits of a word of five bytes. -/
theorem wordOfBytes_getLsbD (b0 b1 b2 b3 b4 : Byte) (i : Nat) :
    (wordOfBytes b0 b1 b2 b3 b4).getLsbD i =
      if i < 8 then b4.getLsbD i else if i - 8 < 8 then b3.getLsbD (i - 8)
      else if i - 8 - 8 < 8 then b2.getLsbD (i - 8 - 8) else if i - 8 - 8 - 8 < 8 then b1.getLsbD (i - 8 - 8 - 8)
      else b0.getLsbD (i - 8 - 8 - 8 - 8) := by
  show (b0 ++ b1 ++ b2 ++ b3 ++ b4 : BitVec (8 + 8 + 8 + 8 + 8)).getLsbD i = _
  simp only [BitVec.getLsbD_append]

/-- R50: the five bytes of a word make the word. -/
theorem wordOfBytes_bytes (w : Word) :
    wordOfBytes (w.extractLsb' 32 8) (w.extractLsb' 24 8) (w.extractLsb' 16 8) (w.extractLsb' 8 8)
      (w.extractLsb' 0 8) = w := by
  apply BitVec.eq_of_getLsbD_eq
  intro i hi
  rw [wordOfBytes_getLsbD]
  simp only [BitVec.getLsbD_extractLsb']
  have e1 : 8 ≤ i → 8 + (i - 8) = i := by omega
  have e2 : 16 ≤ i → 16 + (i - 8 - 8) = i := by omega
  have e3 : 24 ≤ i → 24 + (i - 8 - 8 - 8) = i := by omega
  have e4 : 32 ≤ i → 32 + (i - 8 - 8 - 8 - 8) = i := by omega
  split
  · simp_all
  · split
    · simp [e1 (by omega), *]
    · split
      · simp [e2 (by omega), *]
      · split
        · simp [e3 (by omega), *]
        · have h : i - 8 - 8 - 8 - 8 < 8 := by omega
          simp [e4 (by omega), h]

/-- Decoding a word's bytes is decoding the word. -/
@[simp] theorem decodeBytes_bytesOfWord (w : Word) : decodeBytes (bytesOfWord w) = decode w := by
  simp [bytesOfWord, decodeBytes, wordOfBytes_bytes]

end Sys2Proof
end

