-- ==== Sys2Proof/Laws/Memory.lean ====
section
/-! SUPPORT. The two memories: a read after a write, and the canonical form kept by every operation on the symbol memory. -/

namespace Sys2Proof.Machine

namespace Memory

/-- A read after a write: the written code at the written index, the old code elsewhere (R32). -/
theorem read_write (m : Memory) (a b : Nat) (c : Symbol) :
    (Memory.write m a c).read b = if a = b then some c else m.read b := by
  induction m with
  | nil => simp [Memory.write, Memory.read]
  | cons e m ih =>
    obtain ⟨k, d⟩ := e
    simp only [Memory.write]
    split
    · simp [Memory.read]
    · split
      · subst_vars; simp only [Memory.read]; split <;> rfl
      · simp only [Memory.read, ih]
        by_cases hk : k = b <;> by_cases ha : a = b <;> simp_all

@[simp] theorem read_write_same (m : Memory) (a : Nat) (c : Symbol) : (Memory.write m a c).read a = some c := by
  simp [read_write]

theorem read_write_other (m : Memory) {a b : Nat} (c : Symbol) (h : a ≠ b) :
    (Memory.write m a c).read b = m.read b := by
  simp [read_write, h]

/-- The entries after a write are the written one or old ones. -/
theorem mem_write {m : Memory} {a : Nat} {c : Symbol} {e : Nat × Symbol} (h : e ∈ Memory.write m a c) :
    e = (a, c) ∨ e ∈ m := by
  induction m with
  | nil => simpa [Memory.write] using h
  | cons x m ih =>
    obtain ⟨k, d⟩ := x
    simp only [Memory.write] at h
    split at h
    · simpa using h
    · split at h
      · rcases List.mem_cons.1 h with h | h
        · exact .inl h
        · exact .inr (List.mem_cons_of_mem _ h)
      · rcases List.mem_cons.1 h with h | h
        · exact .inr (h ▸ List.mem_cons_self)
        · exact (ih h).imp id (List.mem_cons_of_mem _)

/-- A write keeps the canonical form. -/
theorem wf_write {m : Memory} (h : m.wf) (a : Nat) (c : Symbol) : (Memory.write m a c).wf := by
  induction m with
  | nil => simp [Memory.write]
  | cons x m ih =>
    obtain ⟨k, d⟩ := x
    have hm := (List.pairwise_cons.1 h).2
    have hk := (List.pairwise_cons.1 h).1
    simp only [Memory.write]
    split
    · next hlt =>
      refine List.pairwise_cons.2 ⟨fun e he => ?_, h⟩
      rcases List.mem_cons.1 he with rfl | he
      · exact hlt
      · exact Nat.lt_trans hlt (hk e he)
    · split
      · next heq => exact List.pairwise_cons.2 ⟨fun e he => heq ▸ hk e he, hm⟩
      · next hlt hne =>
        refine List.pairwise_cons.2 ⟨fun e he => ?_, ih hm⟩
        rcases mem_write he with rfl | he
        · show k < a
          omega
        · exact hk e he

/-- A code read is a listed one. -/
theorem mem_of_read {m : Memory} {a : Nat} {c : Symbol} (h : m.read a = some c) : (a, c) ∈ m := by
  induction m with
  | nil => simp [Memory.read] at h
  | cons x m ih =>
    obtain ⟨k, d⟩ := x
    simp only [Memory.read] at h
    split at h
    · simp_all
    · exact List.mem_cons_of_mem _ (ih h)

/-- In canonical form a listed entry is the one a read finds. -/
theorem read_of_mem {m : Memory} (hwf : m.wf) {a : Nat} {c : Symbol} (h : (a, c) ∈ m) : m.read a = some c := by
  induction m with
  | nil => simp at h
  | cons x m ih =>
    obtain ⟨k, d⟩ := x
    have hk := (List.pairwise_cons.1 hwf).1
    simp only [Memory.read]
    rcases List.mem_cons.1 h with h | h
    · simp_all
    · have : k < a := hk _ h
      rw [if_neg (by omega)]
      exact ih (List.pairwise_cons.1 hwf).2 h

end Memory

/-! ### The access primitives -/

/-- Everything `SymRead` can answer (R31). -/
theorem symRead_eq_ok {s : State} {i : Nat} {c : Symbol} :
    symRead s i = .ok c ↔ i < s.rawCapacity ∧ s.timeline.read i = some c := by
  unfold symRead
  split
  · split <;> simp_all
  · next h => simp [h]

/-- A read of a cell that exists and was written answers its code. -/
theorem symRead_written {s : State} {i : Nat} {c : Symbol} (hi : i < s.rawCapacity)
    (h : s.timeline.read i = some c) : symRead s i = .ok c := symRead_eq_ok.2 ⟨hi, h⟩

/-- Everything `SymWrite` can do (R32). -/
theorem symWrite_eq_ok {s t : State} {i : Nat} {c : Symbol} :
    symWrite s i c = .ok t ↔ i < s.rawCapacity ∧ t = { s with timeline := s.timeline.write i c } := by
  unfold symWrite
  split
  · simp_all [eq_comm]
  · next h => simp [h]

/-! ### The bit space -/

/-- A cleared buffer holds 0 everywhere. -/
@[simp] theorem bitAt_bitClearAll (k : Nat) : bitAt bitClearAll k = false := by
  simp [bitAt, bitClearAll]

/-- R33: a write changes the one position. -/
theorem bitAt_setBitAt (v : Bits64) {k : Nat} (b : Bool) (hk : k < 64) {j : Nat} (hj : j < 64) :
    bitAt (setBitAt v k b) j = if j = k then b else bitAt v j := by
  have l : 63 - j < 64 := by omega
  unfold bitAt setBitAt
  cases b <;> by_cases h : j = k <;> simp [BitVec.getMsbD_eq_getLsbD, BitVec.getLsbD_twoPow, hj, h, l]
  all_goals omega

/-- Everything `BitWrite` can do (R33). -/
theorem bitWrite_eq_ok {v v1 : Bits64} {k : Nat} {b : Bool} :
    bitWrite v k b = .ok v1 ↔ k < 64 ∧ v1 = setBitAt v k b := by
  unfold bitWrite
  split
  · simp_all [eq_comm]
  · next h => simp [h]

end Sys2Proof.Machine
end

