-- ==== Sys2Proof/Laws/State.lean ====
section
/-! SUPPORT. What each update of the state leaves in each field, one lemma a field, all by rfl; and the document's constants. -/

namespace Sys2Proof.Machine

/-! ### The constants of R5 -/

@[simp] theorem params_tIgnoreMax : params.tIgnoreMax = 47 := rfl
@[simp] theorem params_tShortMin : params.tShortMin = 48 := rfl
@[simp] theorem params_tShortMax : params.tShortMax = 80 := rfl
@[simp] theorem params_tLongMin : params.tLongMin = 81 := rfl
@[simp] theorem params_tLongMax : params.tLongMax = 112 := rfl
@[simp] theorem params_searchWindow : params.searchWindow = 50 := rfl
@[simp] theorem params_preambleRun : params.preambleRun = 10 := rfl
@[simp] theorem params_searchTail : params.searchTail = 100 := rfl
@[simp] theorem params_frameBits : params.frameBits = 35 := rfl
@[simp] theorem params_decodedCapacity : params.decodedCapacity = 64 := rfl
@[simp] theorem params_demodSkip : params.demodSkip = 10 := rfl
@[simp] theorem params_elapsedWidth : params.elapsedWidth = 32 := rfl

section
variable (s : State)

/-! ### Handing an outcome back -/

variable (o : OpOutcome)
@[simp] theorem handBack_rawCapacity : (s.handBack o).rawCapacity = s.rawCapacity := rfl
@[simp] theorem handBack_timeline : (s.handBack o).timeline = s.timeline := rfl
@[simp] theorem handBack_writeIndex : (s.handBack o).writeIndex = s.writeIndex := rfl
@[simp] theorem handBack_frameStart : (s.handBack o).frameStart = s.frameStart := rfl
@[simp] theorem handBack_decodedBits : (s.handBack o).decodedBits = s.decodedBits := rfl
@[simp] theorem handBack_input : (s.handBack o).input = s.input := rfl
@[simp] theorem handBack_outcome : (s.handBack o).outcome = some o := rfl
@[simp] theorem handBack_freeDraws : (s.handBack o).freeDraws = s.freeDraws := rfl
@[simp] theorem handBack_handBack (o' : OpOutcome) : (s.handBack o').handBack o = s.handBack o := rfl

/-! ### The capture reset -/

@[simp] theorem captureReset_rawCapacity : (captureReset s).rawCapacity = s.rawCapacity := rfl
@[simp] theorem captureReset_timeline : (captureReset s).timeline = s.timeline := rfl
@[simp] theorem captureReset_writeIndex : (captureReset s).writeIndex = 0 := rfl
@[simp] theorem captureReset_frameStart : (captureReset s).frameStart = s.frameStart := rfl
@[simp] theorem captureReset_decodedBits : (captureReset s).decodedBits = s.decodedBits := rfl
@[simp] theorem captureReset_input : (captureReset s).input = s.input := rfl
@[simp] theorem captureReset_outcome : (captureReset s).outcome = s.outcome := rfl
@[simp] theorem captureReset_freeDraws : (captureReset s).freeDraws = s.freeDraws := rfl

/-! ### Drawing an unspecified value -/

@[simp] theorem drawFrameStart_rawCapacity : (drawFrameStart s).rawCapacity = s.rawCapacity := rfl
@[simp] theorem drawFrameStart_timeline : (drawFrameStart s).timeline = s.timeline := rfl
@[simp] theorem drawFrameStart_writeIndex : (drawFrameStart s).writeIndex = s.writeIndex := rfl
@[simp] theorem drawFrameStart_decodedBits : (drawFrameStart s).decodedBits = s.decodedBits := rfl
@[simp] theorem drawFrameStart_input : (drawFrameStart s).input = s.input := rfl
@[simp] theorem drawFrameStart_outcome : (drawFrameStart s).outcome = s.outcome := rfl
@[simp] theorem drawFrameStart_freeDraws : (drawFrameStart s).freeDraws = s.freeDraws + 1 := rfl
@[simp] theorem drawDecodedBits_rawCapacity : (drawDecodedBits s).rawCapacity = s.rawCapacity := rfl
@[simp] theorem drawDecodedBits_timeline : (drawDecodedBits s).timeline = s.timeline := rfl
@[simp] theorem drawDecodedBits_writeIndex : (drawDecodedBits s).writeIndex = s.writeIndex := rfl
@[simp] theorem drawDecodedBits_frameStart : (drawDecodedBits s).frameStart = s.frameStart := rfl
@[simp] theorem drawDecodedBits_input : (drawDecodedBits s).input = s.input := rfl
@[simp] theorem drawDecodedBits_outcome : (drawDecodedBits s).outcome = s.outcome := rfl
@[simp] theorem drawDecodedBits_freeDraws : (drawDecodedBits s).freeDraws = s.freeDraws + 1 := rfl

/-- U13: the unspecified `frameStart` is in the register's range. -/
theorem drawFrameStart_lt (h : 0 < s.rawCapacity) : (drawFrameStart s).frameStart < s.rawCapacity :=
  Nat.mod_lt _ h

/-! ### The input and initialisation -/

variable (w : Word) (c : Nat)
@[simp] theorem giveCommand_input : (giveCommand w s).input = w :: s.input := rfl
@[simp] theorem giveCommand_writeIndex : (giveCommand w s).writeIndex = s.writeIndex := rfl
@[simp] theorem takeCommand_giveCommand : takeCommand (giveCommand w s) = some (w, s) := rfl
@[simp] theorem initialised_rawCapacity : (State.initialised c).rawCapacity = c := rfl
@[simp] theorem initialised_timeline : (State.initialised c).timeline = [] := rfl
@[simp] theorem initialised_writeIndex : (State.initialised c).writeIndex = 0 := rfl
@[simp] theorem initialised_frameStart : (State.initialised c).frameStart = 0 := rfl

/-- R16: the flag is the gate's condition. -/
@[simp] theorem ready_iff : s.ready = true ↔ s.writeIndex = s.rawCapacity := by simp [State.ready]

end

end Sys2Proof.Machine
end

