-- ==== Sys2Proof/Laws/Operations.lean ====
section
/-! SUPPORT. Everything each shared operation can do, said once: the append, the scan and stages of the locator and of the
demodulator, and the acquisition. Later proofs cite these and unfold nothing. -/

namespace Sys2Proof.Machine

section
variable {s t : State}

/-! ### The append (R71) -/

theorem appendSymbol_ready (sym : Symbol) (h : s.writeIndex = s.rawCapacity) :
    appendSymbol sym s = .next (s.handBack .dropped) := by
  simp [appendSymbol, h, endWith]

theorem appendSymbol_filling (sym : Symbol) (h : s.writeIndex < s.rawCapacity) :
    appendSymbol sym s = .next
      { s with
        timeline := s.timeline.write s.writeIndex sym
        writeIndex := s.writeIndex + 1
        outcome := some (.stored sym s.writeIndex) } := by
  simp [appendSymbol, Nat.ne_of_lt h, symWrite, h, endWith, State.handBack]

/-- Whatever the append does: it drops, or stores one cell and advances the index. -/
theorem appendSymbol_cases {sym : Symbol} (h : appendSymbol sym s = .next t) :
    (s.writeIndex = s.rawCapacity ∧ t = s.handBack .dropped) ∨
    (s.writeIndex < s.rawCapacity ∧
      t = { s with
            timeline := s.timeline.write s.writeIndex sym
            writeIndex := s.writeIndex + 1
            outcome := some (.stored sym s.writeIndex) }) := by
  by_cases he : s.writeIndex = s.rawCapacity
  · rw [appendSymbol_ready sym he] at h
    exact .inl ⟨he, by injection h with h; exact h.symm⟩
  · by_cases hl : s.writeIndex < s.rawCapacity
    · rw [appendSymbol_filling sym hl] at h
      exact .inr ⟨hl, by injection h with h; exact h.symm⟩
    · simp [appendSymbol, he, symWrite, hl] at h

/-! ### The edge (R72) -/

theorem execEdge_cases {e : Nat} (h : execEdge e s = .next t) :
    (classify e = none ∧ t = s.handBack .ignored) ∨
    (∃ sym, classify e = some sym ∧ appendSymbol sym s = .next t) := by
  unfold execEdge at h
  split at h
  · next hc => exact .inl ⟨hc, by simpa [endWith, eq_comm] using h⟩
  · next sym hc => exact .inr ⟨sym, hc, h⟩

/-- R70: the classifier never answers the code 3. -/
theorem classify_ne_corrupt (e : Nat) : classify e ≠ some .corrupt := by
  unfold classify
  split
  · simp
  · split
    · simp
    · split <;> simp

/-! ### The locator (R81 to R84) -/

/-- The scanned range has a cell at every index (R81). -/
theorem scanEnd_le (cap ss : Nat) : scanEnd cap ss ≤ cap := by
  unfold scanEnd searchLimit; omega

/-- A run the loop is in, examined up to index `i`: it is empty, or it began at `start` and ends just before `i`. -/
def Run.EndsAt (r : Run) (i : Nat) : Prop := r.count = 0 ∨ r.start + r.count = i

/-- Extending a run that ends at `i` by the symbol at `i`. -/
theorem Run.extend_endsAt {r : Run} {i : Nat} (h : r.EndsAt i) (c : Symbol) :
    0 < (r.extend i c).count ∧ (r.extend i c).start + (r.extend i c).count = i + 1 ∧ (r.extend i c).prev = c := by
  unfold Run.extend
  split
  · next hc => exact ⟨by simp, by rcases h with h | h <;> simp_all; omega, rfl⟩
  · exact ⟨by simp, rfl, rfl⟩

/-- The loop only ends with `found` at the first index of a run that lies in the range it examined (R84). -/
theorem locateLoop_found {fuel i : Nat} {r : Run} {off : Nat} (hr : r.EndsAt i)
    (h : locateLoop s fuel i r = .ok (.found off)) :
    (r.count ≠ 0 ∧ r.start ≤ off ∨ i ≤ off) ∧ off + 10 ≤ i + fuel := by
  induction fuel generalizing i r with
  | zero => simp [locateLoop] at h
  | succ fuel ih =>
    have step : ∀ c : Symbol, locateLoop s fuel (i + 1) (r.extend i c) = .ok (.found off) →
        (r.count ≠ 0 ∧ r.start ≤ off ∨ i ≤ off) ∧ off + 10 ≤ i + (fuel + 1) := by
      intro c hc
      have hx := Run.extend_endsAt hr c
      have hs : (r.extend i c).start = i ∨ (r.count ≠ 0 ∧ (r.extend i c).start = r.start) := by
        unfold Run.extend
        split
        · next hc => exact .inr ⟨by omega, rfl⟩
        · exact .inl rfl
      have := ih (.inr hx.2.1) hc
      omega
    have stop : ∀ c : Symbol, (r.extend i c).count = 10 → (r.extend i c).start = off →
        (r.count ≠ 0 ∧ r.start ≤ off ∨ i ≤ off) ∧ off + 10 ≤ i + (fuel + 1) := by
      intro c hc ho
      have hx := Run.extend_endsAt hr c
      have hs : (r.extend i c).start = i ∨ (r.count ≠ 0 ∧ (r.extend i c).start = r.start) := by
        unfold Run.extend
        split
        · next hc => exact .inr ⟨by omega, rfl⟩
        · exact .inl rfl
      omega
    rw [locateLoop] at h
    split at h
    · simp at h
    · simp at h
    · have := ih (r := { r with count := 0 }) (.inl rfl) h
      simp at this
      omega
    · next c _ _ _ =>
      split at h
      · next hc =>
        injection h with h
        injection h with h
        exact stop c hc h
      · exact step c h

/-- R84: `Found(offset)` has `searchStart ≤ offset ≤ scanEnd − 10`. -/
theorem locateScan_found {ss off : Nat} (h : locateScan ss s = .ok (.found off)) :
    ss ≤ off ∧ off + 10 ≤ scanEnd s.rawCapacity ss := by
  have := locateLoop_found (.inl rfl) h
  simp [Run.empty] at this
  omega

/-- R13: the offset found is in the register's range. -/
theorem locateScan_found_lt {ss off : Nat} (h : locateScan ss s = .ok (.found off)) : off < s.rawCapacity := by
  have := locateScan_found h
  have := scanEnd_le s.rawCapacity ss
  omega

/-- The loop faults on no cell that exists and was written. -/
theorem locateLoop_ok {fuel i : Nat} (r : Run)
    (h : ∀ k, k < i + fuel → i ≤ k → ∃ c, symRead s k = .ok c) : ∃ x, locateLoop s fuel i r = .ok x := by
  induction fuel generalizing i r with
  | zero => exact ⟨_, rfl⟩
  | succ fuel ih =>
    obtain ⟨c, hc⟩ := h i (by omega) (Nat.le_refl i)
    have next (r : Run) : ∃ x, locateLoop s fuel (i + 1) r = .ok x :=
      ih r fun k hk hi => h k (by omega) (by omega)
    rw [locateLoop, hc]
    split
    · next h => cases h
    · exact ⟨_, rfl⟩
    · exact next _
    · split
      · exact ⟨_, rfl⟩
      · exact next _

/-- What the locate stage can do (R82, R84). -/
theorem locateStage_cases {ss : Nat} {r : LocateResult} (h : locateStage ss s = .ok (r, t)) :
    locateScan ss s = .ok r ∧
    ((∃ off, r = .found off ∧ t = { s with frameStart := off }) ∨
     ((r = .noPreamble ∨ r = .invalidTiming) ∧ t = drawFrameStart s)) := by
  unfold locateStage at h
  split at h <;> simp_all
  all_goals
    obtain ⟨rfl, rfl⟩ := h
    simp

theorem locateStage_of_scan {ss : Nat} {r : LocateResult} (h : locateScan ss s = .ok r) :
    ∃ t, locateStage ss s = .ok (r, t) := by
  unfold locateStage
  cases r <;> simp [h]

/-! ### The demodulator (R91 to R97) -/

/-- A pair is read without a fault when the cells that exist were written, and the answer is `pairAt`. -/
theorem readPair_eq {fs n : Nat} (h : ∀ k < s.rawCapacity, (s.timeline.read k).isSome) :
    readPair s (fs + 10 + 2 * n) = .ok (pairAt s fs n) := by
  unfold readPair pairAt
  by_cases hc : fs + 10 + 2 * n + 1 < s.rawCapacity
  · rw [if_neg (by omega), if_pos hc]
    obtain ⟨a, ha⟩ := Option.isSome_iff_exists.1 (h (fs + 10 + 2 * n) (by omega))
    obtain ⟨b, hb⟩ := Option.isSome_iff_exists.1 (h (fs + 10 + 2 * n + 1) hc)
    rw [symRead_written (by omega) ha, symRead_written hc hb, ha, hb]
  · rw [if_pos (by omega), if_neg hc]

/-- What the demodulate stage can do (R96, R97). -/
theorem demodStage_cases {fs : Nat} {r : Option Bits64} (h : demodStage fs s = .ok (r, t)) :
    demodScan fs s = .ok r ∧
    ((∃ bits, r = some bits ∧ t = { s with decodedBits := bits }) ∨ (r = none ∧ t = drawDecodedBits s)) := by
  unfold demodStage at h
  split at h <;> simp_all
  all_goals
    obtain ⟨rfl, rfl⟩ := h
    simp

theorem demodStage_of_scan {fs : Nat} {r : Option Bits64} (h : demodScan fs s = .ok r) :
    ∃ t, demodStage fs s = .ok (r, t) := by
  unfold demodStage
  cases r <;> simp [h]

/-- The loop faults on no state whose cells were written. -/
theorem demodLoop_ok (h : ∀ k < s.rawCapacity, (s.timeline.read k).isSome) (fs : Nat) {fuel n : Nat} (bits : Bits64)
    (hn : n + fuel = 64) : ∃ x, demodLoop s (fs + 10) fuel n bits = .ok x := by
  induction fuel generalizing n bits with
  | zero => exact ⟨_, rfl⟩
  | succ fuel ih =>
    rw [demodLoop, readPair_eq h]
    split
    · next h => cases h
    · split <;> exact ⟨_, rfl⟩
    · rw [bitWrite_eq_ok.2 ⟨by omega, rfl⟩]
      exact ih _ (by omega)

theorem demodScan_ok (h : ∀ k < s.rawCapacity, (s.timeline.read k).isSome) (fs : Nat) :
    ∃ x, demodScan fs s = .ok x := demodLoop_ok h fs _ rfl

/-! ### Complete windows of reachable states -/

/-- In a complete window every cell that exists was written (R36). -/
theorem State.WindowReady.written (h : s.WindowReady) : ∀ k < s.rawCapacity, (s.timeline.read k).isSome :=
  h.2 ▸ h.1.written

theorem locateScan_ok (h : ∀ k < s.rawCapacity, (s.timeline.read k).isSome) (ss : Nat) :
    ∃ x, locateScan ss s = .ok x := by
  refine locateLoop_ok _ fun k hk _ => ?_
  have hlt : k < s.rawCapacity := by
    have := scanEnd_le s.rawCapacity ss
    omega
  obtain ⟨c, hc⟩ := Option.isSome_iff_exists.1 (h k hlt)
  exact ⟨c, symRead_written hlt hc⟩

/-! ### The operations that read the window -/

/-- What `LOCATE` can do (R80, R84). -/
theorem execLocate_cases {ss : Nat} (h : execLocate ss s = .next t) :
    (s.writeIndex ≠ s.rawCapacity ∧ t = s.handBack .notReady) ∨
    (s.writeIndex = s.rawCapacity ∧
      ((∃ off, locateScan ss s = .ok (.found off) ∧ t = State.handBack { s with frameStart := off } (.found off)) ∨
       (locateScan ss s = .ok .noPreamble ∧ t = (drawFrameStart s).handBack .noPreamble) ∨
       (locateScan ss s = .ok .invalidTiming ∧ t = (drawFrameStart s).handBack .invalidTiming))) := by
  unfold execLocate at h
  split at h
  · next hw => exact .inl ⟨hw, by simpa [endWith, eq_comm] using h⟩
  · next hw =>
    refine .inr ⟨by simpa using hw, ?_⟩
    split at h
    · simp at h
    all_goals
      next hst =>
      have hc := locateStage_cases hst
      simp [endWith] at h
      subst h
      simp at hc
      simp [hc]

/-- What `DEMOD` can do (R90, R96). -/
theorem execDemod_cases {fs : Nat} (h : execDemod fs s = .next t) :
    (s.writeIndex ≠ s.rawCapacity ∧ t = s.handBack .notReady) ∨
    (s.writeIndex = s.rawCapacity ∧
      ((∃ bits, demodScan fs s = .ok (some bits) ∧
          t = State.handBack { s with decodedBits := bits } (.demodulated bits)) ∨
       (demodScan fs s = .ok none ∧ t = (drawDecodedBits s).handBack .manchesterError))) := by
  unfold execDemod at h
  split at h
  · next hw => exact .inl ⟨hw, by simpa [endWith, eq_comm] using h⟩
  · next hw =>
    refine .inr ⟨by simpa using hw, ?_⟩
    split at h
    · simp at h
    all_goals
      next hst =>
      have hc := demodStage_cases hst
      simp [endWith] at h
      subst h
      simp at hc
      simp [hc]

/-! ### The same, from the scan forwards -/

/-- `LOCATE` on a complete window hands back what its scan found (R84). -/
theorem execLocate_of_scan {ss : Nat} (x : LocateResult) (hw : s.writeIndex = s.rawCapacity) :
    locateScan ss s = .ok x →
    execLocate ss s = match x with
      | .found off => .next (State.handBack { s with frameStart := off } (.found off))
      | .noPreamble => .next ((drawFrameStart s).handBack .noPreamble)
      | .invalidTiming => .next ((drawFrameStart s).handBack .invalidTiming) := by
  intro h
  unfold execLocate
  rw [if_neg (not_not_intro hw)]
  cases x <;> simp [locateStage, h, endWith]

/-- `DEMOD` on a complete window hands back what its demodulation produced (R96). -/
theorem execDemod_of_scan {fs : Nat} (x : Option Bits64) (hw : s.writeIndex = s.rawCapacity) :
    demodScan fs s = .ok x →
    execDemod fs s = match x with
      | some bits => .next (State.handBack { s with decodedBits := bits } (.demodulated bits))
      | none => .next ((drawDecodedBits s).handBack .manchesterError) := by
  intro h
  unfold execDemod
  rw [if_neg (not_not_intro hw)]
  cases x <;> simp [demodStage, h, endWith]

/-- `ACQ` whose locate stage fails (R101). -/
theorem acquire_of_locateFailure (codec : Bits64 → Option CardRecord) (hw : s.writeIndex = s.rawCapacity) :
    (locateScan 0 s = .ok .invalidTiming →
      acquire codec s = .next ((captureReset (drawFrameStart s)).handBack .invalidTiming)) ∧
    (locateScan 0 s = .ok .noPreamble →
      acquire codec s = .next ((captureReset (drawFrameStart s)).handBack .noPreamble)) := by
  unfold acquire
  rw [if_neg (not_not_intro hw)]
  constructor <;> intro h <;> simp [locateStage, h, endWindow, endWith]

/-- `ACQ` whose locate stage succeeds: the demodulation of the window from the offset found decides (R101). -/
theorem acquire_of_found {off : Nat} (codec : Bits64 → Option CardRecord) (x : Option Bits64)
    (hw : s.writeIndex = s.rawCapacity) (h : locateScan 0 s = .ok (.found off)) :
    demodScan off { s with frameStart := off } = .ok x →
    acquire codec s = match x with
      | none => .next ((captureReset (drawDecodedBits { s with frameStart := off })).handBack .manchesterError)
      | some bits =>
        .next ((captureReset { s with frameStart := off, decodedBits := bits }).handBack
          (codecOutcome (codec bits))) := by
  intro hd
  unfold acquire
  rw [if_neg (not_not_intro hw)]
  cases x <;> simp [locateStage, h, demodStage, hd, endWindow, endWith]

/-- What `ACQ` can do (R100 to R103). -/
theorem acquire_cases {codec : Bits64 → Option CardRecord} (h : acquire codec s = .next t) :
    (s.writeIndex ≠ s.rawCapacity ∧ t = s.handBack .filling) ∨
    (s.writeIndex = s.rawCapacity ∧
      ((locateScan 0 s = .ok .invalidTiming ∧ t = (captureReset (drawFrameStart s)).handBack .invalidTiming) ∨
       (locateScan 0 s = .ok .noPreamble ∧ t = (captureReset (drawFrameStart s)).handBack .noPreamble) ∨
       (∃ off, locateScan 0 s = .ok (.found off) ∧
         ((demodScan off { s with frameStart := off } = .ok none ∧
            t = (captureReset (drawDecodedBits { s with frameStart := off })).handBack .manchesterError) ∨
          (∃ bits, demodScan off { s with frameStart := off } = .ok (some bits) ∧
            t = (captureReset { s with frameStart := off, decodedBits := bits }).handBack
                  (codecOutcome (codec bits))))))) := by
  unfold acquire at h
  split at h
  · next hw => exact .inl ⟨hw, by simpa [endWith, eq_comm] using h⟩
  · next hw =>
    refine .inr ⟨by simpa using hw, ?_⟩
    split at h
    · simp at h
    · next hst =>
      have hc := locateStage_cases hst
      simp [endWindow, endWith] at h
      subst h
      simp at hc
      simp [hc]
    · next hst =>
      have hc := locateStage_cases hst
      simp [endWindow, endWith] at h
      subst h
      simp at hc
      simp [hc]
    · next off s1 hst =>
      have hc := locateStage_cases hst
      simp at hc
      obtain ⟨hscan, rfl⟩ := hc
      refine .inr (.inr ⟨off, hscan, ?_⟩)
      split at h
      · simp at h
      · next hd =>
        have hc := demodStage_cases hd
        simp [endWindow, endWith] at h
        subst h
        simp at hc
        exact .inl ⟨hc.1, by rw [hc.2]⟩
      · next bits s2 hd =>
        have hc := demodStage_cases hd
        simp [endWindow, endWith] at h
        subst h
        simp at hc
        exact .inr ⟨bits, hc.1, by rw [hc.2]⟩

end

/-! ### The host's read procedure (R104) -/

@[simp] theorem HostRun.call_block (h : HostRun) (c : CarrierCall) : (h.call c).block = h.block := rfl
@[simp] theorem HostRun.call_calls (h : HostRun) (c : CarrierCall) : (h.call c).calls = h.calls ++ [c] := rfl

/-- The block's operations, when they complete, change the block alone. -/
theorem HostRun.perform_next {h : HostRun} {f : State → Host.Outcome State Fault Refusal} {t : State}
    (e : f h.block = .next t) : h.perform f = .next { h with block := t } := by
  simp [HostRun.perform, andThen, e]

/-- A read whose five stretches complete: its result is the record the loop ended with, and the carrier was started before them
and stopped before the last. -/
theorem readCard_of_stages {p : ReadSchedule} {s s1 s2 s3 s4 s5 : State}
    (h1 : performEdges p.beforeReset s = .next s1) (h2 : exec .rst s1 = .next s2)
    (h3 : pollLoop p.laterPolls p.firstPoll s2 = .next s3) (h4 : performEdges p.afterLoop s3 = .next s4)
    (h5 : exec .rst s4 = .next s5) :
    readCard p s = .next
      { result := publishedRecord s3.outcome, final := s5, calls := [.startCarrier, .stopCarrier] } := by
  simp [readCard, HostRun.perform, andThen, h1, h2, h3, h4, h5]

end Sys2Proof.Machine
end

