-- ==== Sys2Proof/Laws/PerInstr.lean ====
section
/-! SUPPORT. Facts said of every instruction, one lemma a constructor. The family `CommandWord`: the word of a well-formed
instruction has the instruction's `op` (R52) in bits 39:32 and an `arg` whose unsigned value is the operand (R51). -/

namespace Sys2Proof.Laws.CommandWord

/-- R51: the operand of an instruction as the unsigned value `arg` holds. -/
def operand : Instr → Nat
  | .rst => 0
  | .append c => c.code.toNat
  | .edge e => e
  | .locate a => a
  | .demod a => a
  | .acq => 0

/-- R50 to R52 for one instruction. -/
def Statement (i : Instr) : Prop :=
  i.WellFormed → opField (encode i) = i.opcode ∧ (argField (encode i)).toNat = operand i

theorem rst : Statement .rst := fun _ => by simp [encode, operand, Instr.arg]

theorem append (sym : Symbol) : Statement (.append sym) := fun _ => by
  cases sym <;> simp [encode, operand, Instr.arg, Symbol.code]

theorem edge (elapsed : Nat) : Statement (.edge elapsed) := fun h => by
  have h : elapsed < 2 ^ 32 := of_decide_eq_true h
  simpa [encode, operand, Instr.arg] using h

theorem locate (searchStart : Nat) : Statement (.locate searchStart) := fun h => by
  have h : searchStart < 2 ^ 32 := of_decide_eq_true h
  simpa [encode, operand, Instr.arg] using h

theorem demod (frameStart : Nat) : Statement (.demod frameStart) := fun h => by
  have h : frameStart < 2 ^ 32 := of_decide_eq_true h
  simpa [encode, operand, Instr.arg] using h

theorem acq : Statement .acq := fun _ => by simp [encode, operand, Instr.arg]

end Sys2Proof.Laws.CommandWord
end

