-- ==== Sys2Proof/Tests/Slice0.lean ====
section
/-! SUPPORT. Tests. Every expected result is a vector of 95_test_vectors.md or an example of a rule, named beside it; and, after
them, for every statement with hypotheses a state and operands that meet them. -/

namespace Sys2Proof.Machine.Tests

/-! ### Small states -/

/-- Cells holding `syms` from index `n` on. -/
def cells : Nat → List Symbol → Memory
  | _, [] => []
  | n, c :: cs => (n, c) :: cells (n + 1) cs

/-- A block of capacity `cap` whose first cells were filled with `syms` since initialisation. -/
def filled (cap : Nat) (syms : List Symbol) : State :=
  { State.initialised cap with timeline := cells 0 syms, writeIndex := syms.length }

/-- A complete window. -/
def window (syms : List Symbol) : State := filled syms.length syms

/-- The example configuration: a complete window of 192 cells, padded with 0 (95_test_vectors.md, notation). -/
def vector (syms : List Symbol) : State := window (syms ++ List.replicate (192 - syms.length) .short)

/-- `alt10` of the vectors. -/
def alt10 : List Symbol := [.short, .long, .short, .long, .short, .long, .short, .long, .short, .long]

/-- `M(bits)` of the vectors. -/
def man (bits : List Bool) : List Symbol := bits.flatMap fun b => if b then [.long, .short] else [.short, .long]

/-- The first `n` bit positions of a buffer. -/
def bitsUpTo (n : Nat) (v : Bits64) : List Bool := (List.range n).map (bitAt v)

/-- Frame A and frame E of the vectors, by their bytes `80 F7 64 DC A0 00 00 00` and `80 F7 B2 6E 20 00 00 00`. -/
def frameA : Bits64 := 0x80F764DCA0000000
def frameE : Bits64 := 0x80F7B26E20000000

/-- The outcome handed back, if the machine went on. -/
def outcomeOf : Host.Outcome State Fault Refusal → Option OpOutcome
  | .next t => t.outcome
  | _ => none

/-- One number of the state after, if the machine went on. -/
def after (f : State → Nat) : Host.Outcome State Fault Refusal → Option Nat
  | .next t => some (f t)
  | _ => none

theorem next_of_outcome {o : Host.Outcome State Fault Refusal} {x : OpOutcome} (h : outcomeOf o = some x) :
    ∃ t, o = .next t ∧ t.outcome = some x := by
  cases o with
  | next t => exact ⟨t, rfl, h⟩
  | fault r => cases h
  | refused r => cases h

/-! ### Well-formedness: each check refuses an ill-formed term -/

theorem test_wf_edge : (Instr.edge (2 ^ 32)).wellFormed = false ∧ (Instr.edge (2 ^ 32 - 1)).wellFormed = true := by decide
theorem test_wf_locate : (Instr.locate (2 ^ 32)).wellFormed = false ∧ (Instr.locate (2 ^ 32 - 1)).wellFormed = true := by decide
theorem test_wf_demod : (Instr.demod (2 ^ 32)).wellFormed = false ∧ (Instr.demod (2 ^ 32 - 1)).wellFormed = true := by decide

/-! ### Command words (R50 to R53), the words of E1 to E9 and one of R58 -/

theorem test_decode_rst : decode 0x0100000000 = .ok .rst := by decide
theorem test_decode_append : decode 0x0200000003 = .ok (.append .corrupt) ∧ decode 0x0200000001 = .ok (.append .long) := by decide
theorem test_decode_edge : decode 0x0300000040 = .ok (.edge 64) := by decide
theorem test_decode_locate : decode 0x04FFFFFFFF = .ok (.locate 4294967295) := by decide
theorem test_decode_demod : decode 0x0500000001 = .ok (.demod 1) := by decide
theorem test_decode_acq : decode 0x0600000000 = .ok .acq := by decide
theorem test_decode_nonzero_arg :
    decode 0x0200000004 = .error .nonzeroArg ∧ decode 0x0100000001 = .error .nonzeroArg ∧
    decode 0x0680000000 = .error .nonzeroArg := by decide
theorem test_decode_reserved_op :
    decode 0x0000000000 = .error .reservedOp ∧ decode 0x0700000000 = .error .reservedOp ∧
    decode 0xFF00000000 = .error .reservedOp := by decide
theorem test_decode_bytes : decodeBytes [0x03, 0x00, 0x00, 0x01, 0x02] = .ok (.edge 258) := by decide

/-- The rows of spec/opcode_table.json as mask and match; no word fits two of them. -/
def tableRows : List (Word × Word) :=
  [(0xFFFFFFFFFF, 0x0100000000), (0xFFFFFFFFFC, 0x0200000000), (0xFF00000000, 0x0300000000),
   (0xFF00000000, 0x0400000000), (0xFF00000000, 0x0500000000), (0xFFFFFFFFFF, 0x0600000000)]

theorem test_rows_disjoint : tableRows.Pairwise fun a b => (a.2 ^^^ b.2) &&& a.1 &&& b.1 ≠ 0 := by decide

/-! ### classify and the capture operations -/

/-- C1 to C8. -/
theorem test_classify :
    [0, 47, 48, 80, 81, 112, 113, 4294967295].map classify =
      [none, none, some .short, some .short, some .long, some .long, some .invalid, some .invalid] := by decide

/-- K2, in a block of capacity 3: the append of the last cell. -/
theorem test_append_last :
    let o := exec (.append .long) (filled 3 [.short, .short])
    outcomeOf o = some (.stored .long 2) ∧ after State.writeIndex o = some 3 := by decide

/-- K3: an append to a complete window is dropped. -/
theorem test_append_dropped : outcomeOf (exec (.append .short) (window [.short, .long])) = some .dropped := by decide

/-- C5, in a block of capacity 9 with seven cells filled. -/
theorem test_edge_stores : outcomeOf (exec (.edge 81) (filled 9 (List.replicate 7 .short))) = some (.stored .long 7) := by decide

/-- K5: an ignored edge on a complete window. -/
theorem test_edge_ignored_when_ready : outcomeOf (exec (.edge 20) (window [.short])) = some .ignored := by decide

/-- K6: `RST` keeps the cells. -/
theorem test_rst :
    exec .rst (window [.long]) = .next { window [.long] with writeIndex := 0, outcome := some .done } := rfl

/-! ### LOCATE, vectors L9 and L16; DEMOD, vectors D6 and D2; ACQ, vectors Q1 and Q7 -/

theorem test_locate_split_by_invalid :
    outcomeOf (exec (.locate 0) (vector [.short, .long, .short, .long, .short, .invalid, .long, .short, .long, .short,
      .long, .short, .long, .short, .long, .short, .short])) = some (.found 6) := by decide +kernel

theorem test_locate_corrupt_before_run :
    outcomeOf (exec (.locate 0) (vector ([.long, .short, .long, .short, .long, .corrupt] ++ alt10))) = some .invalidTiming := by
  decide +kernel

theorem test_demod_extra_bits :
    outcomeOf (exec (.demod 0) (vector (alt10 ++ man (bitsUpTo 35 frameE ++ [true, true, false, true, false])
      ++ [.long, .long]))) = some (.demodulated 0x80F7B26E3A000000) := by decide +kernel

theorem test_demod_bad_pair_20 :
    outcomeOf (exec (.demod 0) (vector (alt10 ++ man (bitsUpTo 20 frameE) ++ [.long, .long]
      ++ man (bitsUpTo 14 frameE)))) = some .manchesterError := by decide +kernel

theorem test_acq_success :
    let o := acquire hid35Decode (vector ([.invalid] ++ alt10 ++ man (bitsUpTo 35 frameA) ++ [.long, .long]))
    outcomeOf o = some (.success ⟨0x07, 0xBB, 0x26, 0xE0, 0x00⟩) ∧ after State.writeIndex o = some 0 ∧
    after State.frameStart o = some 1 := by decide +kernel

theorem test_acq_long_preamble :
    outcomeOf (acquire hid35Decode (vector ([.short, .long] ++ alt10 ++ man (bitsUpTo 35 frameA) ++ [.long, .long])))
      = some .formatReject := by decide +kernel

/-! ### Pair codes, bit order, the codec of the context, the notation -/

/-- M3. -/
theorem test_pairs_disallowed :
    [(Symbol.short, Symbol.short), (.long, .long), (.short, .invalid), (.invalid, .long), (.corrupt, .short)].map
      (fun p => pairBit p.1 p.2) = [none, none, none, none, none] := by decide

/-- R57: the codes of the table, in its order. -/
theorem test_outcome_codes :
    [OpOutcome.done, .stored .long 9, .dropped, .ignored, .found 1, .demodulated 1, .success default, .filling, .invalidTiming,
      .noPreamble, .manchesterError, .formatReject, .timeout, .notReady, .illegalCommand].map OpOutcome.code =
    [0x00, 0x01, 0x02, 0x03, 0x04, 0x05, 0x06, 0x07, 0x10, 0x11, 0x12, 0x13, 0x14, 0x20, 0x21] := by decide

/-- B2, B3, B4. -/
theorem test_bit_order :
    bytesOf (setBitAt bitClearAll 7 true) = [0x01, 0, 0, 0, 0, 0, 0, 0] ∧
    bytesOf (setBitAt bitClearAll 8 true) = [0, 0x80, 0, 0, 0, 0, 0, 0] ∧
    bytesOf (setBitAt bitClearAll 34 true) = [0, 0, 0, 0, 0x20, 0, 0, 0] := by decide +kernel

/-- R119 and S12: the frame and the record of facility code 123 and card number 45678; R120: the decoder rejects that frame. -/
theorem test_codec_encode :
    packRecord 123 45678 = ⟨0x07, 0xBB, 0x26, 0xE0, 0x00⟩ ∧ hid35Encode ⟨0x07, 0xBB, 0x26, 0xE0, 0x00⟩ = frameE ∧
    hid35Decode frameE = none := by decide +kernel

/-- R121 and S8: frame A decodes; with bit 15 flipped it is accepted with card number 12910. -/
theorem test_codec_decode :
    hid35Decode frameA = some ⟨0x07, 0xBB, 0x26, 0xE0, 0x00⟩ ∧
    hid35Decode (setBitAt frameA 15 (!bitAt frameA 15)) = some (packRecord 123 12910) := by decide +kernel

/-- R58 (its example line) and R59. -/
theorem test_notation :
    parseLine ['L', 'O', 'C', 'A', 'T', 'E', ' ', '0', ' ', '=', '>', ' ', 'F'] = some (.op (.locate 0)) ∧
    parseLine ['A', 'P', 'P', 'E', 'N', 'D', ' ', 'c', 'o', 'r', 'r', 'u', 'p', 't', ' ', ';', 'x'] = some (.op (.append .corrupt)) ∧
    parseLine ['E', 'D', 'G', 'E', ' ', '0', 'x', 'C', '8'] = some (.op (.edge 200)) ∧
    (Asm.rep 2 (.line .short (.line .bit1 .done)) .done).expand =
      [.edge 64, .edge 96, .edge 64, .edge 64, .edge 96, .edge 64] := by decide

/-! ### A step -/

/-- The next command is taken and performed. -/
theorem test_step : step (State.reset.withFetchWord 40 0x0100000000) = .next { State.reset with outcome := some .done } := rfl

/-- E9: an illegal command changes nothing. -/
theorem test_step_illegal :
    step (State.reset.withFetchWord 40 0x0700000000) = .next { State.reset with outcome := some .illegalCommand } := rfl

/-! ### Windows of reachable states, for the witnesses -/

theorem cells_mem {e : Nat × Symbol} {syms : List Symbol} {n : Nat} (h : e ∈ cells n syms) :
    n ≤ e.1 ∧ e.1 < n + syms.length := by
  induction syms generalizing n with
  | nil => simp [cells] at h
  | cons c cs ih =>
    rcases List.mem_cons.1 h with rfl | h
    · simp
    · have := ih h
      simp only [List.length_cons]
      omega

theorem cells_wf (syms : List Symbol) (n : Nat) : (cells n syms).wf := by
  induction syms generalizing n with
  | nil => exact List.Pairwise.nil
  | cons c cs ih => exact List.pairwise_cons.2 ⟨fun e he => (cells_mem he).1, ih _⟩

theorem cells_read (syms : List Symbol) (n k : Nat) (hk : n ≤ k) : (cells n syms).read k = syms[k - n]? := by
  induction syms generalizing n with
  | nil => rfl
  | cons c cs ih =>
    simp only [cells, Memory.read]
    by_cases h : n = k
    · simp [h]
    · rw [if_neg h, ih _ (by omega)]
      have : k - n = (k - (n + 1)) + 1 := by omega
      rw [this, List.getElem?_cons_succ]

/-- Every state `filled` builds within its capacity meets the invariant. -/
theorem filled_inv {cap : Nat} {syms : List Symbol} (h : syms.length ≤ cap) : (filled cap syms).Inv where
  index_le := h
  canonical := cells_wf syms 0
  cells_exist := fun e he => by
    have := (cells_mem he).2
    show e.1 < cap
    omega
  written := fun k hk => by
    show ((cells 0 syms).read k).isSome
    rw [cells_read syms 0 k (Nat.zero_le k)]
    have : k < syms.length := hk
    simpa using this
  frame_lt := id

/-- `window` builds complete windows. -/
theorem window_ready (syms : List Symbol) : (window syms).WindowReady := ⟨filled_inv (Nat.le_refl _), rfl⟩

/-- The cells of a complete window. -/
theorem window_read (syms : List Symbol) (k : Nat) : (window syms).timeline.read k = syms[k]? :=
  cells_read syms 0 k (Nat.zero_le k)

/-- A locator window whose run ends in the last cell the scan examines: capacity 110, `scanEnd = 10`. -/
def tight : State := window (alt10 ++ List.replicate 100 .short)

/-- One with a corrupt cell before the run: capacity 111, `scanEnd = 11`. -/
def tightCorrupt : State := window ([.corrupt] ++ alt10 ++ List.replicate 100 .short)

theorem tight_found : outcomeOf (exec (.locate 0) tight) = some (.found 0) := by decide +kernel

/-! ### Witnesses: for every statement with hypotheses, a case that meets them -/

theorem witness_DecodeOfEncode :
    (Instr.edge 4294967295).WellFormed ∧ (Instr.append .corrupt).WellFormed ∧ Instr.acq.WellFormed := by decide
theorem witness_EncodeOfDecode : decode 0x05FFFFFFFF = .ok (.demod 4294967295) := by decide
theorem witness_BytesOpFirst : ([] : List Byte).length ≠ 5 := by decide
theorem witness_StepRunsDecodedCommand :
    (giveCommand 0x0600000000 State.reset).input = [0x0600000000] ∧ decode 0x0600000000 = .ok .acq := by decide
theorem witness_StepOnIllegalCommand :
    (giveCommand 0x0000000000 State.reset).input = [0x0000000000] ∧ decode 0x0000000000 = .error .reservedOp := by decide
theorem witness_StepWithoutCommand : State.reset.input = [] := rfl
theorem witness_ClassifyBands :
    classify 47 = none ∧ classify 48 = some .short ∧ classify 80 = some .short ∧ classify 81 = some .long ∧
    classify 112 = some .long ∧ classify 113 = some .invalid := by decide
theorem witness_AppendStores : (State.initialised 1).writeIndex < (State.initialised 1).rawCapacity := by decide
theorem witness_AppendDropped : (State.initialised 0).writeIndex = (State.initialised 0).rawCapacity := rfl
theorem witness_EdgeClassifiesAndAppends :
    classify 47 = none ∧
    (classify 48 = some .short ∧ (State.initialised 1).writeIndex < (State.initialised 1).rawCapacity) ∧
    (classify 113 = some .invalid ∧ (State.initialised 0).writeIndex = (State.initialised 0).rawCapacity) := by decide
theorem witness_SymbolMemoryReadsBack :
    0 < (State.initialised 1).rawCapacity ∧ (State.initialised 1).rawCapacity ≤ 1 := by decide
theorem witness_AppendsFillInOrder :
    (State.initialised 2).writeIndex = 0 ∧ [Symbol.short, Symbol.corrupt].length ≤ (State.initialised 2).rawCapacity ∧
    1 < [Symbol.short, Symbol.corrupt].length := by decide
theorem witness_ReadyGateHoldsWriter :
    (window [.long]).writeIndex = (window [.long]).rawCapacity ∧
    ∀ i ∈ [Instr.append .corrupt, .edge 64, .edge 20], i.issuer = .edgeAgent := by decide
theorem witness_ReadersRefusedWhileFilling : (filled 3 [.short, .long]).writeIndex < (filled 3 [.short, .long]).rawCapacity := by decide
theorem witness_AcqWhileFilling : (filled 3 []).writeIndex < (filled 3 []).rawCapacity := by decide

theorem witness_LocateFindsFirstHit_found : tight.WindowReady ∧ FirstHit tight 0 0 ∧ ¬ CorruptBefore tight 0 (0 + 10) := by
  refine ⟨window_ready _, ⟨by unfold IsHit isBinary; decide +kernel, by intro j h; omega⟩, ?_⟩
  rintro ⟨c, -, hc, h⟩
  have : ∀ c < 10, tight.timeline.read c ≠ some .corrupt := by decide +kernel
  exact this c hc h
theorem witness_LocateFindsFirstHit_corrupt :
    tightCorrupt.WindowReady ∧ FirstHit tightCorrupt 0 1 ∧ CorruptBefore tightCorrupt 0 (1 + 10) := by
  refine ⟨window_ready _, ⟨by unfold IsHit isBinary; decide +kernel, ?_⟩, ⟨0, by decide⟩⟩
  intro j hj
  obtain rfl : j = 0 := by omega
  unfold IsHit isBinary
  decide +kernel
theorem witness_LocateFindsFirstHit_none :
    (window (List.replicate 100 .short)).WindowReady ∧ (∀ j, ¬ IsHit (window (List.replicate 100 .short)) 0 j) ∧
    ¬ CorruptBefore (window (List.replicate 100 .short)) 0 (scanEnd 100 0) := by
  refine ⟨window_ready _, fun j h => absurd h.2.1 (Nat.not_lt_zero _), ?_⟩
  rintro ⟨c, -, hc, -⟩
  exact absurd hc (Nat.not_lt_zero _)
theorem witness_LocateFindsFirstHit_noneCorrupt :
    (window (.corrupt :: List.replicate 100 .short)).WindowReady ∧
    (∀ j, ¬ IsHit (window (.corrupt :: List.replicate 100 .short)) 0 j) ∧
    CorruptBefore (window (.corrupt :: List.replicate 100 .short)) 0 (scanEnd 101 0) := by
  refine ⟨window_ready _, fun j h => ?_, ⟨0, by decide⟩⟩
  have h : j + 9 < 1 := h.2.1
  omega

/-- `tight` with another last cell. -/
def tightOther : State := window (alt10 ++ (List.replicate 99 .short ++ [.corrupt]))

theorem tightOther_found : outcomeOf (exec (.locate 0) tightOther) = some (.found 0) := by decide +kernel

theorem witness_LocateReadsOnlyItsRange :
    ∃ s' t', exec (.locate 0) tight = .next s' ∧ exec (.locate 0) tightOther = .next t' ∧
      tight.writeIndex = tight.rawCapacity ∧ tightOther.writeIndex = tightOther.rawCapacity ∧
      tight.rawCapacity = tightOther.rawCapacity ∧
      ∀ k, 0 ≤ k → k < min (0 + 50) (tight.rawCapacity - 100) → tight.timeline.read k = tightOther.timeline.read k := by
  obtain ⟨s', hs, -⟩ := next_of_outcome tight_found
  obtain ⟨t', ht, -⟩ := next_of_outcome tightOther_found
  refine ⟨s', t', hs, ht, (window_ready _).2, (window_ready _).2, by decide +kernel, fun k _ hk => ?_⟩
  have hcap : tight.rawCapacity = 110 := by decide +kernel
  have hk : k < alt10.length := by
    rw [hcap] at hk
    simp only [alt10, List.length_cons, List.length_nil]
    omega
  rw [tight, tightOther, window_read, window_read, List.getElem?_append_left hk, List.getElem?_append_left hk]
theorem witness_FoundOffsetInRange :
    ∃ t, tight.writeIndex = tight.rawCapacity ∧ exec (.locate 0) tight = .next t ∧ t.outcome = some (.found 0) := by
  obtain ⟨t, h, ho⟩ := next_of_outcome tight_found
  exact ⟨t, rfl, h, ho⟩
theorem witness_InvalidTimingNeedsCorrupt :
    (filled 2 [.invalid]).NoCorrupt ∧ Instr.edge 48 ≠ .append .corrupt ∧
    outcomeOf (exec (.edge 48) (filled 2 [.invalid])) = some (.stored .short 1) := by decide

/-- Windows whose demodulation meets (1,1) as pair `n` after `n` ones. -/
def brokenAt (n : Nat) : State := window (alt10 ++ man (List.replicate n true) ++ [.long, .long])

theorem witness_DemodProducesFrame :
    (brokenAt 35).WindowReady ∧ outcomeOf (exec (.demod 0) (brokenAt 35)) = some (.demodulated 0xFFFFFFFFE0000000) ∧
    (brokenAt 34).WindowReady ∧ outcomeOf (exec (.demod 0) (brokenAt 34)) = some .manchesterError :=
  ⟨window_ready _, by decide +kernel, window_ready _, by decide +kernel⟩
theorem witness_DisallowedPairEndsFrame :
    (brokenAt 35).WindowReady ∧ (brokenAt 34).WindowReady ∧
    (∀ k < 35, (pairAt (brokenAt 35) 0 k).isSome) ∧ (∀ k < 34, (pairAt (brokenAt 34) 0 k).isSome) ∧
    0 + 10 + 2 * 35 + 1 < (brokenAt 35).rawCapacity ∧ 0 + 10 + 2 * 34 + 1 < (brokenAt 34).rawCapacity ∧
    (brokenAt 35).timeline.read 80 = some .long ∧ (brokenAt 35).timeline.read 81 = some .long ∧
    (brokenAt 34).timeline.read 78 = some .long ∧ (brokenAt 34).timeline.read 79 = some .long := by
  refine ⟨window_ready _, window_ready _, ?_⟩
  simp only [pairAt, brokenAt, window_read]
  decide +kernel
/-- `brokenAt 35` with no preamble before the pairs. -/
def noPreambleBroken : State := window (List.replicate 10 .corrupt ++ (man (List.replicate 35 true) ++ [.long, .long]))

theorem noPreambleBroken_demodulated :
    outcomeOf (exec (.demod 0) noPreambleBroken) = some (.demodulated 0xFFFFFFFFE0000000) := by decide +kernel

theorem witness_DemodReadsOnlyItsPairs :
    ∃ s' t', exec (.demod 0) (brokenAt 35) = .next s' ∧ exec (.demod 0) noPreambleBroken = .next t' ∧
      (brokenAt 35).writeIndex = (brokenAt 35).rawCapacity ∧ noPreambleBroken.writeIndex = noPreambleBroken.rawCapacity ∧
      (brokenAt 35).rawCapacity = noPreambleBroken.rawCapacity ∧
      ∀ k, 0 + 10 ≤ k → k < 0 + 138 → (brokenAt 35).timeline.read k = noPreambleBroken.timeline.read k := by
  obtain ⟨s', hs, -⟩ := next_of_outcome witness_DemodProducesFrame.2.1
  obtain ⟨t', ht, -⟩ := next_of_outcome noPreambleBroken_demodulated
  refine ⟨s', t', hs, ht, (window_ready _).2, (window_ready _).2, by decide +kernel, fun k hk _ => ?_⟩
  have h1 : alt10.length ≤ k := by
    simp only [alt10, List.length_cons, List.length_nil]
    omega
  have h2 : (List.replicate 10 Symbol.corrupt).length ≤ k := by
    rw [List.length_replicate]
    omega
  rw [brokenAt, noPreambleBroken, window_read, window_read, List.append_assoc, List.getElem?_append_right h1,
    List.getElem?_append_right h2, List.length_replicate]
  rfl
theorem witness_BitOrderOfBuffer :
    (63 < 64 ∧ 64 ≤ 64) ∧
    ∀ k < 16, bitAt 0x80F7000000000000 k = [true, false, false, false, false, false, false, false,
      true, true, true, true, false, true, true, true].getD k false := by decide +kernel
theorem witness_RescanGivesTheSame :
    ∃ t u, tight.writeIndex = tight.rawCapacity ∧ exec (.locate 0) tight = .next t ∧
      exec (.demod 0) (brokenAt 35) = .next u := by
  obtain ⟨t, h, -⟩ := next_of_outcome tight_found
  obtain ⟨u, h', -⟩ := next_of_outcome witness_DemodProducesFrame.2.1
  exact ⟨t, u, rfl, h, h'⟩

/-- A window whose preamble and frame fill it exactly: capacity 110, frame A from cell 10, and 30 cells of noise. -/
def cardWindow (frame : Bits64) : State := window (alt10 ++ man (bitsUpTo 35 frame) ++ List.replicate 30 .short)

/-- The state a `LOCATE` leaves that found its run at `o`. -/
theorem located {s : State} {a o : Nat} (hw : s.writeIndex = s.rawCapacity)
    (h : outcomeOf (exec (.locate a) s) = some (.found o)) :
    exec (.locate a) s = .next (State.handBack { s with frameStart := o } (.found o)) := by
  obtain ⟨t, ht, ho⟩ := next_of_outcome h
  rcases execLocate_cases ht with ⟨h, -⟩ | ⟨-, ⟨o', -, rfl⟩ | ⟨-, rfl⟩ | ⟨-, rfl⟩⟩
  · exact absurd hw h
  · obtain rfl : o' = o := by simpa using ho
    exact ht
  · simp at ho
  · simp at ho

theorem card_located (frame : Bits64) (h : frame = frameA ∨ frame = frameE) :
    outcomeOf (exec (.locate 0) (cardWindow frame)) = some (.found 0) := by
  rcases h with rfl | rfl <;> decide +kernel

theorem card_demodulated (frame : Bits64) (h : frame = frameA ∨ frame = frameE) :
    outcomeOf (exec (.demod 0) (State.handBack { cardWindow frame with frameStart := 0 } (.found 0)))
      = some (.demodulated frame) := by
  rcases h with rfl | rfl <;> decide +kernel

/-- The clause of `RescanGivesTheSame` about runs that draw no unspecified value. -/
theorem witness_RescanGivesTheSame_noDraw :
    (∃ t, exec (.locate 0) tight = .next t ∧ t.freeDraws = tight.freeDraws) ∧
    ∃ u, exec (.demod 0) (brokenAt 35) = .next u ∧ u.freeDraws = (brokenAt 35).freeDraws := by
  refine ⟨⟨_, located rfl tight_found, rfl⟩, ?_⟩
  obtain ⟨u, hu, ho⟩ := next_of_outcome witness_DemodProducesFrame.2.1
  refine ⟨u, hu, ?_⟩
  have hd : execDemod 0 (brokenAt 35) = .next u := hu
  rcases execDemod_cases hd with ⟨h, -⟩ | ⟨-, ⟨_, -, rfl⟩ | ⟨-, rfl⟩⟩
  · exact absurd (window_ready _).2 h
  · rfl
  · simp at ho

/-- The clauses of the locate stage's failures. -/
theorem witness_AcqChainsTheStages_noRun :
    tightCorrupt.WindowReady ∧ outcomeOf (exec (.locate 0) tightCorrupt) = some .invalidTiming ∧
    (window (List.replicate 100 .short)).WindowReady ∧
    outcomeOf (exec (.locate 0) (window (List.replicate 100 .short))) = some .noPreamble :=
  ⟨window_ready _, by decide +kernel, window_ready _, by decide +kernel⟩
/-- The clause of `ManchesterError`. -/
theorem witness_AcqChainsTheStages_badPair :
    tight.WindowReady ∧ exec (.locate 0) tight = .next (State.handBack { tight with frameStart := 0 } (.found 0)) ∧
    outcomeOf (exec (.demod 0) (State.handBack { tight with frameStart := 0 } (.found 0))) = some .manchesterError :=
  ⟨window_ready _, located (window_ready _).2 tight_found, by decide +kernel⟩
/-- The clauses of the codec's two answers. -/
theorem witness_AcqChainsTheStages_frame (frame : Bits64) (h : frame = frameA ∨ frame = frameE) :
    (cardWindow frame).WindowReady ∧
    exec (.locate 0) (cardWindow frame) = .next (State.handBack { cardWindow frame with frameStart := 0 } (.found 0)) ∧
    outcomeOf (exec (.demod 0) (State.handBack { cardWindow frame with frameStart := 0 } (.found 0))) = some (.demodulated frame) ∧
    hid35Decode frameE = none ∧ hid35Decode frameA = some ⟨0x07, 0xBB, 0x26, 0xE0, 0x00⟩ :=
  ⟨window_ready _, located (window_ready _).2 (card_located frame h), card_demodulated frame h, by decide +kernel, by decide +kernel⟩
theorem witness_AcqEndsTheWindow : tight.WindowReady := window_ready _
theorem witness_SecondAcqFindsFilling :
    ∃ t, 0 < (window [.short]).rawCapacity ∧ (window [.short]).writeIndex = (window [.short]).rawCapacity ∧
      exec .acq (window [.short]) = .next t := by
  obtain ⟨t, h, -⟩ := next_of_outcome (show outcomeOf (exec .acq (window [.short])) = some .noPreamble by decide +kernel)
  exact ⟨t, by decide, rfl, h⟩
/-- At the boundary: capacity 110 is enough. -/
theorem witness_SuccessNeedsRoomAndCodec :
    ∃ t, acquire hid35Decode (cardWindow frameA) = .next t ∧ t.outcome = some (.success ⟨0x07, 0xBB, 0x26, 0xE0, 0x00⟩) ∧
      (cardWindow frameA).rawCapacity = 110 := by
  obtain ⟨t, h, ho⟩ := next_of_outcome (show outcomeOf (acquire hid35Decode (cardWindow frameA)) =
    some (.success ⟨0x07, 0xBB, 0x26, 0xE0, 0x00⟩) by decide +kernel)
  exact ⟨t, h, ho, by decide +kernel⟩

theorem witness_EdgeAgentFrame : ∃ t, (Instr.edge 96).issuer = .edgeAgent ∧ exec (.edge 96) (State.initialised 1) = .next t :=
  ⟨_, rfl, rfl⟩
theorem witness_HostAgentFrame :
    Instr.acq.issuer = .hostAgent ∧ (Instr.demod 0).issuer = .hostAgent ∧
    outcomeOf (exec .acq (State.initialised 1)) = some .filling ∧ (State.initialised 1).writeIndex ≠ (State.initialised 1).rawCapacity ∧
    outcomeOf (exec (.demod 0) (brokenAt 35)) = some (.demodulated 0xFFFFFFFFE0000000) := by decide +kernel
/-- The two clauses: the last append sets the flag, `RST` clears it. -/
theorem witness_ReadyFlagChanges_inv : (State.initialised 1).Inv := filled_inv (syms := []) (by decide)
theorem witness_ReadyFlagChanges :
    ((State.initialised 1).ready = false ∧ after (fun t => t.ready.toNat) (exec (.append .long) (State.initialised 1)) = some 1) ∧
    ((window [.long]).ready = true ∧ after (fun t => t.ready.toNat) (exec .rst (window [.long])) = some 0) := by decide
theorem witness_OutcomesOfEachOperation : ∃ t, exec (.edge 113) (State.initialised 1) = .next t := ⟨_, rfl⟩
theorem witness_ResetLeaves : 0 < 1 ∧ (State.initialised 1).ready = false := by decide
theorem witness_StepKeepsTheInvariant :
    ∃ t, (giveCommand 0x0200000003 (State.initialised 1)).Inv ∧ step (giveCommand 0x0200000003 (State.initialised 1)) = .next t :=
  ⟨_, ⟨by decide, List.Pairwise.nil, by decide, by decide, by decide⟩, rfl⟩
theorem witness_NoStepStops : (window [.short, .corrupt]).Inv := (window_ready _).1
theorem witness_ReadCardTearsDown : (filled 5 [.long]).Inv := filled_inv (by decide)
theorem witness_ReadWithoutEdges : (filled 0 []).Inv := filled_inv (by decide)
theorem witness_CodecReadsTheFrame :
    ¬ (bitAt (setBitAt frameA 0 false) 0 = true ∧ bitAt (setBitAt frameA 0 false) 1 = false) ∧
    ¬ (bitAt (setBitAt frameA 34 false) 33 = false ∧ bitAt (setBitAt frameA 34 false) 34 = true) ∧
    ∀ k < 35, bitAt frameA k = bitAt (setBitAt frameA 35 true) k := by decide +kernel

end Sys2Proof.Machine.Tests
end

section
/-! PROOF. The statements of 00_scope.md: the room a successful `ACQ` needs (R4), and what a step does with and without a
command word (R8, R15). -/

namespace Sys2Proof.Machine

section
variable {s t : State}

/-! ### The room and the record of a successful acquisition (R4, R103) -/

/-- R81, R84: a run is found only where the search tail of 100 cells lies beyond its ten. -/
theorem locateScan_found_room {ss off : Nat} (h : locateScan ss s = .ok (.found off)) :
    off + 110 ≤ s.rawCapacity := by
  have hrun : off + 10 ≤ scanEnd s.rawCapacity ss := (locateScan_found h).2
  simp only [scanEnd, searchLimit, params_searchTail] at hrun
  omega

/-- R103: the codec stage succeeds with a record exactly when the codec gave that record. -/
@[simp] theorem codecOutcome_eq_success {x : Option CardRecord} {r : CardRecord} :
    codecOutcome x = .success r ↔ x = some r := by
  cases x <;> simp [codecOutcome]

/-- R101, R103: an `ACQ` that succeeds found a run, and published the codec's record of the bits it left in the buffer. -/
theorem acquire_success {codec : Bits64 → Option CardRecord} {r : CardRecord} (h : acquire codec s = .next t)
    (ho : t.outcome = some (.success r)) :
    (∃ off, locateScan 0 s = .ok (.found off)) ∧ codec t.decodedBits = some r := by
  rcases acquire_cases h with
    ⟨-, rfl⟩ | ⟨-, ⟨-, rfl⟩ | ⟨-, rfl⟩ | ⟨off, hfound, ⟨-, rfl⟩ | ⟨bits, -, rfl⟩⟩⟩
  case inr.inr.inr.inr => exact ⟨⟨off, hfound⟩, by simpa using ho⟩
  all_goals simp at ho

/-! ### A step (R8, R15) -/

/-- R8: with a word waiting a step takes it and performs it. -/
theorem step_of_input_cons {w : Word} {rest : List Word} (h : s.input = w :: rest) :
    step s = runWord w { s with input := rest } := by
  simp only [step, takeCommand, h]

/-- R50: a word that decodes is performed as its instruction. -/
theorem runWord_of_decode {w : Word} {i : Instr} (h : decode w = .ok i) : runWord w s = exec i s := by
  simp only [runWord, h]

/-- R10, R15: with no word waiting a step is idle. -/
theorem step_of_input_nil (h : s.input = []) : step s = idle s := by
  simp only [step, takeCommand, h]

end

/-! ### The statements -/

/-- Settles O32: of the paths of `ACQ` only the codec stage's can hand back a record, and it is reached only past a run found
within the scanned range. -/
theorem successNeedsRoomAndCodec : Obligations.SuccessNeedsRoomAndCodec := by
  refine ⟨fun _ => rfl, fun codec s t r h ho => ?_⟩
  obtain ⟨⟨off, hfound⟩, hrecord⟩ := acquire_success h ho
  have hroom : off + 110 ≤ s.rawCapacity := locateScan_found_room hfound
  exact ⟨by omega, hrecord⟩

/-- Settles O6: the step takes the word, and the word decides the instruction. -/
theorem stepRunsDecodedCommand : Obligations.StepRunsDecodedCommand := by
  intro s w rest i hin hdec
  rw [step_of_input_cons hin, runWord_of_decode hdec]

/-- Settles O8: the step is idle, and an idle step answers the state it found. -/
theorem stepWithoutCommand : Obligations.StepWithoutCommand :=
  fun _ hin => step_of_input_nil hin

end Sys2Proof.Machine
end

section
/-! PROOF. The statements of 10_state.md: the invariant of the reachable states (R12, R13, R18, R22) and the capacity (R14),
kept by each update of the state and so by every step; the changes of `READY` (R16); and the order in which appends fill the
cells (R22 (b)). -/

namespace Sys2Proof.Machine

section
variable {s t : State}

/-! ### The invariant and the updates of the state (R22) -/

/-- The invariant speaks of the capacity, the cells, the index and `frameStart` alone: a state with the same cells, an index no
higher and `frameStart` in its range meets it again. -/
theorem State.Inv.of_same_cells (h : s.Inv) (hcap : t.rawCapacity = s.rawCapacity) (hcells : t.timeline = s.timeline)
    (hindex : t.writeIndex ≤ s.writeIndex) (hframe : 0 < s.rawCapacity → t.frameStart < s.rawCapacity) : t.Inv where
  index_le := hcap ▸ hindex.trans h.index_le
  canonical := hcells ▸ h.canonical
  cells_exist := by rw [hcells, hcap]; exact h.cells_exist
  written := fun k hk => hcells ▸ h.written k (hk.trans_le hindex)
  frame_lt := by rw [hcap]; exact hframe

theorem State.Inv.handBack (h : s.Inv) (o : OpOutcome) : (s.handBack o).Inv :=
  h.of_same_cells rfl rfl le_rfl h.frame_lt

/-- R18, R73: a capture reset clears no cell, and no cell lies below index 0. -/
theorem State.Inv.captureReset (h : s.Inv) : (captureReset s).Inv :=
  h.of_same_cells rfl rfl (Nat.zero_le _) h.frame_lt

/-- U13: an unspecified `frameStart` is in the register's range. -/
theorem State.Inv.drawFrameStart (h : s.Inv) : (drawFrameStart s).Inv :=
  h.of_same_cells rfl rfl le_rfl (drawFrameStart_lt s)

theorem State.Inv.drawDecodedBits (h : s.Inv) : (drawDecodedBits s).Inv :=
  h.of_same_cells rfl rfl le_rfl h.frame_lt

theorem State.Inv.setFrameStart (h : s.Inv) {off : Nat} (hoff : off < s.rawCapacity) :
    State.Inv { s with frameStart := off } :=
  h.of_same_cells rfl rfl le_rfl fun _ => hoff

theorem State.Inv.setDecodedBits (h : s.Inv) (bits : Bits64) : State.Inv { s with decodedBits := bits } :=
  h.of_same_cells rfl rfl le_rfl h.frame_lt

theorem State.Inv.setInput (h : s.Inv) (ws : List Word) : State.Inv { s with input := ws } :=
  h.of_same_cells rfl rfl le_rfl h.frame_lt

/-- R22 (b): the cell an append writes is the one the advanced index newly covers. -/
theorem State.Inv.store (h : s.Inv) (hfill : s.writeIndex < s.rawCapacity) (sym : Symbol) (o : Option OpOutcome) :
    State.Inv
      { s with timeline := s.timeline.write s.writeIndex sym, writeIndex := s.writeIndex + 1, outcome := o } where
  index_le := hfill
  canonical := Memory.wf_write h.canonical _ _
  cells_exist := fun e he => by
    rcases Memory.mem_write he with rfl | he
    · exact hfill
    · exact h.cells_exist e he
  written := fun k hk => by
    have hk : k < s.writeIndex + 1 := hk
    rw [Memory.read_write]
    split
    · rfl
    · exact h.written k (by omega)
  frame_lt := h.frame_lt

/-- R21: nothing is written and `writeIndex` is 0 after initialisation. -/
theorem initialised_inv (cap : Nat) : (State.initialised cap).Inv where
  index_le := Nat.zero_le _
  canonical := List.Pairwise.nil
  cells_exist := fun _ he => absurd he List.not_mem_nil
  written := fun _ hk => absurd hk (Nat.not_lt_zero _)
  frame_lt := id

/-! ### The invariant and the operations -/

theorem appendSymbol_inv {sym : Symbol} (hinv : s.Inv) (h : appendSymbol sym s = .next t) : t.Inv := by
  rcases appendSymbol_cases h with ⟨-, rfl⟩ | ⟨hfill, rfl⟩
  · exact hinv.handBack _
  · exact hinv.store hfill sym _

theorem execEdge_inv {e : Nat} (hinv : s.Inv) (h : execEdge e s = .next t) : t.Inv := by
  rcases execEdge_cases h with ⟨-, rfl⟩ | ⟨sym, -, happ⟩
  · exact hinv.handBack _
  · exact appendSymbol_inv hinv happ

theorem execLocate_inv {ss : Nat} (hinv : s.Inv) (h : execLocate ss s = .next t) : t.Inv := by
  rcases execLocate_cases h with ⟨-, rfl⟩ | ⟨-, ⟨off, hscan, rfl⟩ | ⟨-, rfl⟩ | ⟨-, rfl⟩⟩
  · exact hinv.handBack _
  · exact (hinv.setFrameStart (locateScan_found_lt hscan)).handBack _
  · exact hinv.drawFrameStart.handBack _
  · exact hinv.drawFrameStart.handBack _

theorem execDemod_inv {fs : Nat} (hinv : s.Inv) (h : execDemod fs s = .next t) : t.Inv := by
  rcases execDemod_cases h with ⟨-, rfl⟩ | ⟨-, ⟨bits, -, rfl⟩ | ⟨-, rfl⟩⟩
  · exact hinv.handBack _
  · exact (hinv.setDecodedBits bits).handBack _
  · exact hinv.drawDecodedBits.handBack _

theorem acquire_inv {codec : Bits64 → Option CardRecord} (hinv : s.Inv) (h : acquire codec s = .next t) : t.Inv := by
  rcases acquire_cases h with
    ⟨-, rfl⟩ | ⟨-, ⟨-, rfl⟩ | ⟨-, rfl⟩ | ⟨off, hscan, ⟨-, rfl⟩ | ⟨bits, -, rfl⟩⟩⟩
  · exact hinv.handBack _
  · exact hinv.drawFrameStart.captureReset.handBack _
  · exact hinv.drawFrameStart.captureReset.handBack _
  · exact (hinv.setFrameStart (locateScan_found_lt hscan)).drawDecodedBits.captureReset.handBack _
  · exact ((hinv.setFrameStart (locateScan_found_lt hscan)).setDecodedBits bits).captureReset.handBack _

/-- R73: everything `RST` does. -/
theorem exec_rst : exec .rst s = .next ((captureReset s).handBack .done) := rfl

/-- R22: every operation keeps the invariant. -/
theorem exec_inv {i : Instr} (hinv : s.Inv) (h : exec i s = .next t) : t.Inv := by
  cases i with
  | rst =>
    rw [exec_rst] at h
    cases h
    exact hinv.captureReset.handBack _
  | append sym => exact appendSymbol_inv hinv h
  | edge e => exact execEdge_inv hinv h
  | locate ss => exact execLocate_inv hinv h
  | demod fs => exact execDemod_inv hinv h
  | acq => exact acquire_inv hinv h

/-! ### The capacity and the index (R12, R14) -/

/-- R14, R71: an append keeps the capacity; it keeps the index too, or stores a cell below the capacity and advances it. -/
theorem appendSymbol_index {sym : Symbol} (h : appendSymbol sym s = .next t) :
    t.rawCapacity = s.rawCapacity ∧
    (t.writeIndex = s.writeIndex ∨
     s.writeIndex < s.rawCapacity ∧ t.writeIndex = s.writeIndex + 1 ∧
       ∃ c, t.outcome = some (.stored c s.writeIndex)) := by
  rcases appendSymbol_cases h with ⟨-, rfl⟩ | ⟨hfill, rfl⟩
  · exact ⟨rfl, .inl rfl⟩
  · exact ⟨rfl, .inr ⟨hfill, rfl, sym, rfl⟩⟩

/-- R14, R72: an edge does to the index what an append does, or nothing. -/
theorem execEdge_index {e : Nat} (h : execEdge e s = .next t) :
    t.rawCapacity = s.rawCapacity ∧
    (t.writeIndex = s.writeIndex ∨
     s.writeIndex < s.rawCapacity ∧ t.writeIndex = s.writeIndex + 1 ∧
       ∃ c, t.outcome = some (.stored c s.writeIndex)) := by
  rcases execEdge_cases h with ⟨-, rfl⟩ | ⟨sym, -, happ⟩
  · exact ⟨rfl, .inl rfl⟩
  · exact appendSymbol_index happ

/-- R14, R84: `LOCATE` keeps the capacity and the index. -/
theorem execLocate_index {ss : Nat} (h : execLocate ss s = .next t) :
    t.rawCapacity = s.rawCapacity ∧ t.writeIndex = s.writeIndex := by
  rcases execLocate_cases h with ⟨-, rfl⟩ | ⟨-, ⟨off, -, rfl⟩ | ⟨-, rfl⟩ | ⟨-, rfl⟩⟩ <;> exact ⟨rfl, rfl⟩

/-- R14, R97: `DEMOD` keeps the capacity and the index. -/
theorem execDemod_index {fs : Nat} (h : execDemod fs s = .next t) :
    t.rawCapacity = s.rawCapacity ∧ t.writeIndex = s.writeIndex := by
  rcases execDemod_cases h with ⟨-, rfl⟩ | ⟨-, ⟨bits, -, rfl⟩ | ⟨-, rfl⟩⟩ <;> exact ⟨rfl, rfl⟩

/-- R14, R102: `ACQ` keeps the capacity, and keeps the index or clears it. -/
theorem acquire_index {codec : Bits64 → Option CardRecord} (h : acquire codec s = .next t) :
    t.rawCapacity = s.rawCapacity ∧ (t.writeIndex = s.writeIndex ∨ t.writeIndex = 0) := by
  rcases acquire_cases h with
    ⟨-, rfl⟩ | ⟨-, ⟨-, rfl⟩ | ⟨-, rfl⟩ | ⟨off, -, ⟨-, rfl⟩ | ⟨bits, -, rfl⟩⟩⟩
  case inl => exact ⟨rfl, .inl rfl⟩
  all_goals exact ⟨rfl, .inr rfl⟩

/-- R12, R14: no operation changes the capacity. The index is kept, cleared (by `RST` and `ACQ` only) or advanced by one (by a
store of the edge agent only). -/
theorem exec_index_cases {i : Instr} (h : exec i s = .next t) :
    t.rawCapacity = s.rawCapacity ∧
    (t.writeIndex = s.writeIndex ∨
     (i = .rst ∨ i = .acq) ∧ t.writeIndex = 0 ∨
     i.issuer = .edgeAgent ∧ s.writeIndex < s.rawCapacity ∧ t.writeIndex = s.writeIndex + 1 ∧
       ∃ c, t.outcome = some (.stored c s.writeIndex)) := by
  cases i with
  | rst =>
    rw [exec_rst] at h
    cases h
    exact ⟨rfl, .inr (.inl ⟨.inl rfl, rfl⟩)⟩
  | append sym => exact (appendSymbol_index h).imp_right (Or.imp_right fun hst => .inr ⟨rfl, hst⟩)
  | edge e => exact (execEdge_index h).imp_right (Or.imp_right fun hst => .inr ⟨rfl, hst⟩)
  | locate ss => exact (execLocate_index h).imp_right .inl
  | demod fs => exact (execDemod_index h).imp_right .inl
  | acq => exact (acquire_index h).imp_right (Or.imp_right fun hz => .inl ⟨.inr rfl, hz⟩)

/-! ### The step (R8, R53) -/

/-- A step is idle, refuses its word, or performs an instruction on the state with the word taken. -/
theorem step_cases (h : step s = .next t) :
    t = s ∨
    ∃ rest, t = State.handBack { s with input := rest } .illegalCommand ∨
      ∃ i, exec i { s with input := rest } = .next t := by
  cases hin : s.input with
  | nil =>
    rw [step_of_input_nil hin] at h
    cases h
    exact .inl rfl
  | cons w rest =>
    rw [step_of_input_cons hin] at h
    refine .inr ⟨rest, ?_⟩
    unfold runWord at h
    split at h
    · next i _ => exact .inr ⟨i, h⟩
    · cases h
      exact .inl rfl

/-! ### The flag (R16) -/

theorem ready_eq_false_iff : s.ready = false ↔ s.writeIndex ≠ s.rawCapacity := by
  simp [State.ready]

theorem captureState_of_not_ready (h : s.ready = false) : s.captureState = .filling := by
  simp [State.captureState, h]

/-! ### A run of appends (R22 (b), R36 (b)) -/

/-- One append, and then the rest of the operations on the state that stored its symbol. -/
theorem runOps_append_filling (sym : Symbol) (is : List Instr) (h : s.writeIndex < s.rawCapacity) :
    runOps (.append sym :: is) s = runOps is
      { s with
        timeline := s.timeline.write s.writeIndex sym
        writeIndex := s.writeIndex + 1
        outcome := some (.stored sym s.writeIndex) } := by
  have hexec : exec (.append sym) s = _ := appendSymbol_filling sym h
  rw [runOps, hexec, andThen]

/-- From any index with room for them, the symbols of a list land in the cells from that index on, in order, and every other cell
keeps what it held. -/
theorem runOps_appends_fill (syms : List Symbol) (hroom : s.writeIndex + syms.length ≤ s.rawCapacity) :
    ∃ t, runOps (syms.map .append) s = .next t ∧ t.writeIndex = s.writeIndex + syms.length ∧
      (∀ k < syms.length, t.timeline.read (s.writeIndex + k) = syms[k]?) ∧
      (∀ k, k < s.writeIndex ∨ s.writeIndex + syms.length ≤ k → t.timeline.read k = s.timeline.read k) := by
  induction syms generalizing s with
  | nil => exact ⟨s, rfl, rfl, by simp, fun _ _ => rfl⟩
  | cons c cs ih =>
    rw [List.length_cons] at hroom
    rw [List.map_cons, runOps_append_filling c _ (by omega)]
    obtain ⟨t, hrun, hindex, hcells, hother⟩ :=
      ih (s := { s with timeline := s.timeline.write s.writeIndex c, writeIndex := s.writeIndex + 1,
                        outcome := some (.stored c s.writeIndex) }) (by simp only; omega)
    simp only at hindex hcells hother
    refine ⟨t, hrun, by rw [hindex, List.length_cons]; omega, fun k hk => ?_, fun k hk => ?_⟩
    · cases k with
      | zero =>
        rw [Nat.add_zero, hother _ (.inl (Nat.lt_succ_self _)), Memory.read_write_same, List.getElem?_cons_zero]
      | succ k =>
        rw [List.length_cons] at hk
        rw [show s.writeIndex + (k + 1) = s.writeIndex + 1 + k by omega, hcells k (by omega), List.getElem?_cons_succ]
    · rw [List.length_cons] at hk
      rw [hother k (by omega), Memory.read_write_other _ _ (by omega)]

end

/-! ### The statements -/

/-- Settles O40: a step is idle, refuses its word or performs an instruction, and each keeps the invariant and the capacity. -/
theorem stepKeepsTheInvariant : Obligations.StepKeepsTheInvariant := by
  intro s t hinv h
  rcases step_cases h with rfl | ⟨rest, rfl | ⟨i, hexec⟩⟩
  · exact ⟨hinv, rfl⟩
  · exact ⟨(hinv.setInput rest).handBack _, rfl⟩
  · exact ⟨exec_inv (hinv.setInput rest) hexec, (exec_index_cases hexec).1⟩

/-- Settles O15: the fill of a list of appends, begun at index 0. -/
theorem appendsFillInOrder : Obligations.AppendsFillInOrder := by
  intro s syms hzero hroom
  obtain ⟨t, hrun, hindex, hcells, hother⟩ := runOps_appends_fill (s := s) syms (by omega)
  simp only [hzero, Nat.zero_add] at hindex hcells hother
  exact ⟨t, hrun, hindex, hcells, fun k hk => hother k (.inr hk)⟩

/-- Settles O35: the flag is `writeIndex = rawCapacity`, the capacity stays, and below it only the advance by one of a store
reaches it, while only `RST` and `ACQ` bring the index down from it. -/
theorem readyFlagChanges : Obligations.ReadyFlagChanges := by
  intro i s t h
  simp only [ready_eq_false_iff, ready_iff]
  obtain ⟨hcap, hkept | ⟨hop, hzero⟩ | ⟨hedge, hfill, hadv, hstored⟩⟩ := exec_index_cases h
  · exact ⟨fun _ _ _ => by omega, fun _ _ => by omega⟩
  · exact ⟨fun hinv _ _ => by have := hinv.index_le; omega, fun _ _ => hop⟩
  · exact ⟨fun _ _ _ => ⟨hedge, by omega, hstored⟩, fun _ _ => by omega⟩

/-- Settles O38: by the fields of the initial state; index 0 is not the capacity when that is not 0. -/
theorem resetLeaves : Obligations.ResetLeaves := by
  refine ⟨rfl, fun cap => ⟨rfl, rfl, fun hpos => ?_⟩⟩
  have hfilling : (State.initialised cap).ready = false := ready_eq_false_iff.2 hpos.ne
  exact ⟨hfilling, captureState_of_not_ready hfilling⟩

/-- Settles O39: `State.reset` is one of the initial states. -/
theorem resetMeetsTheInvariant : Obligations.ResetMeetsTheInvariant :=
  ⟨initialised_inv _, initialised_inv⟩

end Sys2Proof.Machine
end

section
/-! PROOF. The statements of 20_memory.md: the symbol memory and the bit space read back (R31 to R33), the gate that keeps the
writer out of a complete window (R36 (b)), and the repetition of a scan over it (R39). -/

namespace Sys2Proof.Machine

section
variable {s t : State}

/-! ### The symbol memory (R31, R32) -/

/-- R31, U20: a read of an absent cell faults. -/
theorem symRead_absent {i : Nat} (h : s.rawCapacity ≤ i) : symRead s i = .error (.absentCell i) :=
  if_neg h.not_gt

/-- The model's choice (notes/assumptions/17.md): so does a write. -/
theorem symWrite_absent {i : Nat} (c : Symbol) (h : s.rawCapacity ≤ i) :
    symWrite s i c = .error (.absentCell i) :=
  if_neg h.not_gt

/-- R31: what a read answers depends on the capacity and on the one cell. -/
theorem symRead_congr {i : Nat} (hcap : t.rawCapacity = s.rawCapacity)
    (hcell : t.timeline.read i = s.timeline.read i) : symRead t i = symRead s i := by
  simp only [symRead, hcap, hcell]

/-- R32: a read after a write answers the written code at the written cell, and what it answered before elsewhere. -/
theorem symRead_symWrite {i : Nat} {c : Symbol} (h : symWrite s i c = .ok t) (j : Nat) :
    symRead t j = if j = i then .ok c else symRead s j := by
  obtain ⟨hi, rfl⟩ := symWrite_eq_ok.1 h
  by_cases hj : j = i
  · subst hj
    rw [if_pos rfl]
    exact symRead_written hi (Memory.read_write_same _ _ _)
  · rw [if_neg hj]
    exact symRead_congr rfl (Memory.read_write_other _ _ (Ne.symm hj))

/-! ### The bit space (R33) -/

/-- R33: bit `i` of byte `j`, counted from the least significant, is position `8 j + 7 − i`. -/
theorem byteAt_getLsbD (v : Bits64) {j i : Nat} (hj : j < 8) (hi : i < 8) :
    (byteAt v j).getLsbD i = bitAt v (8 * j + (7 - i)) := by
  have hpos : 8 * j + (7 - i) < 64 := by omega
  have hsame : 56 - 8 * j + i = 63 - (8 * j + (7 - i)) := by omega
  simp [byteAt, bitAt, BitVec.getMsbD_eq_getLsbD, hi, hpos, hsame]

/-- R33: a byte is known by its eight positions, the first its most significant bit. -/
theorem byteAt_eq_of_bits {v : Bits64} {j : Nat} {b : Byte} (hj : j < 8)
    (h : ∀ i < 8, bitAt v (8 * j + i) = b.getMsbD i) : byteAt v j = b := by
  apply BitVec.eq_of_getLsbD_eq
  intro i hi
  rw [byteAt_getLsbD v hj hi, h _ (by omega), BitVec.getMsbD_eq_getLsbD, decide_eq_true (by omega), Bool.true_and]
  congr 1
  omega

/-! ### The edge agent on a complete window (R36 (b), R137) -/

/-- R72: an edge on a complete window is ignored or dropped. -/
theorem execEdge_ready (e : Nat) (h : s.writeIndex = s.rawCapacity) : ∃ o, execEdge e s = .next (s.handBack o) := by
  unfold execEdge
  split
  · exact ⟨.ignored, rfl⟩
  · exact ⟨.dropped, appendSymbol_ready _ h⟩

/-- R36 (b): on a complete window an operation of the edge agent hands back an outcome and does nothing else. -/
theorem exec_edgeAgent_ready {i : Instr} (hi : i.issuer = .edgeAgent) (h : s.writeIndex = s.rawCapacity) :
    ∃ o, exec i s = .next (s.handBack o) := by
  cases i with
  | append sym => exact ⟨.dropped, appendSymbol_ready sym h⟩
  | edge e => exact execEdge_ready e h
  | rst | locate _ | demod _ | acq => cases hi

/-- R36 (b): so does any number of them, since each leaves the window complete for the next. -/
theorem runOps_edgeAgent_ready {is : List Instr} (his : ∀ i ∈ is, i.issuer = .edgeAgent)
    (h : s.writeIndex = s.rawCapacity) : ∃ o, runOps is s = .next { s with outcome := o } := by
  induction is generalizing s with
  | nil => exact ⟨s.outcome, rfl⟩
  | cons i is ih =>
    obtain ⟨o, hexec⟩ := exec_edgeAgent_ready (his i List.mem_cons_self) h
    obtain ⟨o', hrun⟩ := ih (s := s.handBack o) (fun j hj => his j (List.mem_cons_of_mem _ hj)) h
    exact ⟨o', by rw [runOps, hexec, andThen, hrun]; rfl⟩

/-! ### What the scans read (R39, R85, R98) -/

/-- R85: the locator's loop reads the cells of its range alone. -/
theorem locateLoop_congr {fuel i : Nat} (r : Run)
    (h : ∀ k, i ≤ k → k < i + fuel → symRead t k = symRead s k) : locateLoop t fuel i r = locateLoop s fuel i r := by
  induction fuel generalizing i r with
  | zero => rfl
  | succ fuel ih =>
    have hrest (r : Run) : locateLoop t fuel (i + 1) r = locateLoop s fuel (i + 1) r :=
      ih r fun k hk hlt => h k (by omega) (by omega)
    simp only [locateLoop, h i le_rfl (by omega), hrest]

theorem locateScan_congr (ss : Nat) (hcap : t.rawCapacity = s.rawCapacity)
    (h : ∀ k, ss ≤ k → k < scanEnd s.rawCapacity ss → t.timeline.read k = s.timeline.read k) :
    locateScan ss t = locateScan ss s := by
  unfold locateScan
  rw [hcap]
  exact locateLoop_congr _ fun k hk hlt => symRead_congr hcap (h k hk (by omega))

/-- R91, R95: a pair is read from its two cells. -/
theorem readPair_congr {p : Nat} (hcap : t.rawCapacity = s.rawCapacity) (hfst : symRead t p = symRead s p)
    (hsnd : symRead t (p + 1) = symRead s (p + 1)) : readPair t p = readPair s p := by
  simp only [readPair, hcap, hfst, hsnd]

/-- R98: the demodulator's loop reads the cells of the pairs that still fit alone. -/
theorem demodLoop_congr {base fuel n : Nat} (bits : Bits64) (hcap : t.rawCapacity = s.rawCapacity)
    (h : ∀ k, base + 2 * n ≤ k → k < base + 2 * (n + fuel) → symRead t k = symRead s k) :
    demodLoop t base fuel n bits = demodLoop s base fuel n bits := by
  induction fuel generalizing n bits with
  | zero => rfl
  | succ fuel ih =>
    have hpair : readPair t (base + 2 * n) = readPair s (base + 2 * n) :=
      readPair_congr hcap (h _ le_rfl (by omega)) (h _ (by omega) (by omega))
    have hrest (bits : Bits64) : demodLoop t base fuel (n + 1) bits = demodLoop s base fuel (n + 1) bits :=
      ih bits fun k hk hlt => h k (by omega) (by omega)
    simp only [demodLoop, hpair, hrest]

theorem demodScan_congr (fs : Nat) (hcap : t.rawCapacity = s.rawCapacity)
    (h : ∀ k, fs + 10 ≤ k → k < fs + 138 → t.timeline.read k = s.timeline.read k) :
    demodScan fs t = demodScan fs s := by
  refine demodLoop_congr _ hcap fun k hk hlt => symRead_congr hcap (h k ?_ ?_)
  all_goals
    simp only [demodStart, params_demodSkip, params_decodedCapacity] at hk hlt
    omega

/-! ### A second run over the same window (R39) -/

/-- R39: what is asked of `u`, left by a second run, where the first took `s` to `t`. -/
def Rescanned (s t u : State) : Prop :=
  u.outcome = t.outcome ∧ u.timeline = s.timeline ∧ (t.freeDraws = s.freeDraws → u = t)

/-- A second run that leaves what the first left. -/
theorem Rescanned.of_same (h : t.timeline = s.timeline) : Rescanned s t t := ⟨rfl, h, fun _ => rfl⟩

/-- D13: a second run after a first that drew an unspecified value. -/
theorem Rescanned.of_draw {u : State} (hout : u.outcome = t.outcome) (hcells : u.timeline = s.timeline)
    (hdraw : t.freeDraws = s.freeDraws + 1) : Rescanned s t u :=
  ⟨hout, hcells, fun hnone => by omega⟩

/-- R84: `LOCATE` changes no cell. -/
theorem execLocate_timeline {ss : Nat} (h : execLocate ss s = .next t) : t.timeline = s.timeline := by
  rcases execLocate_cases h with ⟨-, rfl⟩ | ⟨-, ⟨off, -, rfl⟩ | ⟨-, rfl⟩ | ⟨-, rfl⟩⟩ <;> rfl

/-- R97: `DEMOD` changes no cell. -/
theorem execDemod_timeline {fs : Nat} (h : execDemod fs s = .next t) : t.timeline = s.timeline := by
  rcases execDemod_cases h with ⟨-, rfl⟩ | ⟨-, ⟨bits, -, rfl⟩ | ⟨-, rfl⟩⟩ <;> rfl

/-- R39: `LOCATE` changes neither what its scan reads nor the gate, so a second run ends as the first did. -/
theorem execLocate_again {ss : Nat} (hw : s.writeIndex = s.rawCapacity) (h : execLocate ss s = .next t) :
    ∃ u, execLocate ss t = .next u ∧ Rescanned s t u := by
  obtain ⟨hcap, hindex⟩ := execLocate_index h
  have hready : t.writeIndex = t.rawCapacity := by rw [hindex, hw, hcap]
  have hscan : locateScan ss t = locateScan ss s :=
    locateScan_congr ss hcap fun _ _ _ => by rw [execLocate_timeline h]
  rcases execLocate_cases h with ⟨hne, -⟩ | ⟨-, ⟨off, hres, rfl⟩ | ⟨hres, rfl⟩ | ⟨hres, rfl⟩⟩
  · exact absurd hw hne
  · exact ⟨_, execLocate_of_scan _ hready (hscan.trans hres), .of_same rfl⟩
  · exact ⟨_, execLocate_of_scan _ hready (hscan.trans hres), .of_draw rfl rfl rfl⟩
  · exact ⟨_, execLocate_of_scan _ hready (hscan.trans hres), .of_draw rfl rfl rfl⟩

/-- R39: the same of `DEMOD`. -/
theorem execDemod_again {fs : Nat} (hw : s.writeIndex = s.rawCapacity) (h : execDemod fs s = .next t) :
    ∃ u, execDemod fs t = .next u ∧ Rescanned s t u := by
  obtain ⟨hcap, hindex⟩ := execDemod_index h
  have hready : t.writeIndex = t.rawCapacity := by rw [hindex, hw, hcap]
  have hscan : demodScan fs t = demodScan fs s :=
    demodScan_congr fs hcap fun _ _ _ => by rw [execDemod_timeline h]
  rcases execDemod_cases h with ⟨hne, -⟩ | ⟨-, ⟨bits, hres, rfl⟩ | ⟨hres, rfl⟩⟩
  · exact absurd hw hne
  · exact ⟨_, execDemod_of_scan _ hready (hscan.trans hres), .of_same rfl⟩
  · exact ⟨_, execDemod_of_scan _ hready (hscan.trans hres), .of_draw rfl rfl rfl⟩

end

/-! ### The statements -/

/-- Settles O16: on a complete window any run of the edge agent's operations changes the outcome handed back and nothing else. -/
theorem readyGateHoldsWriter : Obligations.ReadyGateHoldsWriter := by
  intro s is hready his
  obtain ⟨o, hrun⟩ := runOps_edgeAgent_ready his hready
  exact ⟨_, hrun, rfl, rfl, rfl, rfl, rfl⟩

/-- Settles O27: a byte's bits are eight positions in order, and the example's bytes are known by theirs. -/
theorem bitOrderOfBuffer : Obligations.BitOrderOfBuffer := by
  refine ⟨fun v k hk => ?_, bitAt_bitClearAll, fun v k b hk => ?_, fun v k b hk => ?_, fun v hbits => ⟨?_, ?_⟩⟩
  · rw [byteAt_getLsbD v (by omega) (by omega)]
    congr 1
    omega
  · exact ⟨_, bitWrite_eq_ok.2 ⟨hk, rfl⟩, fun j hj => bitAt_setBitAt v b hk hj⟩
  · exact if_neg hk.not_gt
  all_goals
    refine byteAt_eq_of_bits (by decide) fun i hi => (hbits _ (by omega)).trans ?_
    revert i
    decide

/-- Settles O28: `LOCATE` and `DEMOD` each end a second run as they ended the first. -/
theorem rescanGivesTheSame : Obligations.RescanGivesTheSame := by
  rintro i s t hw (⟨ss, rfl⟩ | ⟨fs, rfl⟩) h
  · exact execLocate_again hw h
  · exact execDemod_again hw h

/-- Settles O14: the write of a cell that exists succeeds and is read back; an absent cell faults on either access. -/
theorem symbolMemoryReadsBack : Obligations.SymbolMemoryReadsBack := by
  intro s i c
  refine ⟨fun hi => ?_, fun habsent => ⟨symRead_absent habsent, symWrite_absent c habsent⟩⟩
  have hwrite : symWrite s i c = .ok _ := symWrite_eq_ok.2 ⟨hi, rfl⟩
  exact ⟨_, hwrite, symRead_symWrite hwrite⟩

end Sys2Proof.Machine
end

section
/-! PROOF. The statements of 30_encoding.md: the command word, decoded and encoded (R50 to R53); where the code 3 and the outcome
`InvalidTiming` come from (R54, R55, R131); the pairs (R56, R59); and the outcomes with their numbers (R57). -/

namespace Sys2Proof

/-! ### The operand fields (R51) -/

/-- R51: an `arg` with no operand is 0. -/
theorem decodeNoOperand_eq_ok {arg : Arg} {i j : Instr} : decodeNoOperand arg i = .ok j ↔ arg = 0 ∧ j = i := by
  unfold decodeNoOperand
  split
  · next hz => simp [hz, eq_comm]
  · next hnz => exact iff_of_false nofun fun h => hnz h.1

/-- R53: any other is refused. -/
theorem decodeNoOperand_eq_error {arg : Arg} {i : Instr} : (∃ e, decodeNoOperand arg i = .error e) ↔ arg ≠ 0 := by
  unfold decodeNoOperand
  split
  · next hz => simp [hz]
  · next hnz => exact iff_of_true ⟨_, rfl⟩ hnz

/-- R51: the 30 bits above a symbol code are 0 exactly when `arg` is below 4. -/
theorem reservedBits_eq_zero {arg : Arg} : arg.extractLsb' 2 30 = 0 ↔ arg.toNat < 4 := by
  have hzero : (0 : BitVec 30).toNat = 0 := rfl
  rw [← BitVec.toNat_inj, BitVec.extractLsb'_toNat, Nat.shiftRight_eq_div_pow, hzero]
  omega

/-- R51: an `arg` below 4 is its two low bits. -/
theorem setWidth_symField {arg : Arg} (h : arg.toNat < 4) : (arg.extractLsb' 0 2).setWidth 32 = arg := by
  simp only [← BitVec.toNat_inj, BitVec.toNat_setWidth, BitVec.extractLsb'_toNat, Nat.shiftRight_zero]
  omega

/-- R51: what the operand of `APPEND` decodes to, and from which `arg`. -/
theorem decodeSymOperand_eq_ok {arg : Arg} {i : Instr} :
    decodeSymOperand arg = .ok i ↔ ∃ c, i = .append c ∧ arg = (Instr.append c).arg := by
  unfold decodeSymOperand
  constructor
  · intro h
    split at h
    · next hz =>
      cases h
      exact ⟨_, rfl, by rw [Instr.arg, Symbol.code_ofCode, setWidth_symField (reservedBits_eq_zero.1 hz)]⟩
    · cases h
  · rintro ⟨c, rfl, rfl⟩
    obtain ⟨hz, hcode⟩ := symField_setWidth c.code
    rw [Instr.arg, if_pos hz, hcode, Symbol.ofCode_code]

/-- R53: an `arg` of `APPEND` is refused from 4 on. -/
theorem decodeSymOperand_eq_error {arg : Arg} : (∃ e, decodeSymOperand arg = .error e) ↔ 4 ≤ arg.toNat := by
  unfold decodeSymOperand
  simp only [reservedBits_eq_zero]
  split <;> simp <;> omega

/-! ### The opcode map (R52, R53) -/

section
variable (arg : Arg)

theorem decode_op_rst : decode (encodeFields 0x01 arg) = decodeNoOperand arg .rst := by simp [decode]
theorem decode_op_append : decode (encodeFields 0x02 arg) = decodeSymOperand arg := by simp [decode]
theorem decode_op_edge : decode (encodeFields 0x03 arg) = .ok (.edge arg.toNat) := by simp [decode]
theorem decode_op_locate : decode (encodeFields 0x04 arg) = .ok (.locate arg.toNat) := by simp [decode]
theorem decode_op_demod : decode (encodeFields 0x05 arg) = .ok (.demod arg.toNat) := by simp [decode]
theorem decode_op_acq : decode (encodeFields 0x06 arg) = decodeNoOperand arg .acq := by simp [decode]

/-- R53: the values of `op` that no operation has. -/
def ReservedOp (op : Byte) : Prop := op = 0x00 ∨ 0x07 ≤ op.toNat

theorem decode_op_reserved {op : Byte} (h : ReservedOp op) : decode (encodeFields op arg) = .error .reservedOp := by
  have hne : op ≠ 0x01 ∧ op ≠ 0x02 ∧ op ≠ 0x03 ∧ op ≠ 0x04 ∧ op ≠ 0x05 ∧ op ≠ 0x06 := by
    unfold ReservedOp at h
    bv_omega
  simp only [decode, opField_encodeFields, hne, if_false]

end

/-- R52, R53: every `op` is one of the six operations' or reserved. -/
theorem op_cases (op : Byte) :
    op = 0x01 ∨ op = 0x02 ∨ op = 0x03 ∨ op = 0x04 ∨ op = 0x05 ∨ op = 0x06 ∨ ReservedOp op := by
  unfold ReservedOp
  bv_omega

/-- R50 to R53: the fields an instruction was decoded from are its own, and its operand fits. -/
theorem fields_of_decode {op : Byte} {arg : Arg} {i : Instr} (h : decode (encodeFields op arg) = .ok i) :
    i.WellFormed ∧ i.opcode = op ∧ i.arg = arg := by
  have hfit : decide (arg.toNat < 2 ^ 32) = true := decide_eq_true arg.isLt
  have hback : BitVec.ofNat 32 arg.toNat = arg := by simp
  rcases op_cases op with rfl | rfl | rfl | rfl | rfl | rfl | hres
  · rw [decode_op_rst] at h
    obtain ⟨rfl, rfl⟩ := decodeNoOperand_eq_ok.1 h
    exact ⟨rfl, rfl, rfl⟩
  · rw [decode_op_append] at h
    obtain ⟨c, rfl, rfl⟩ := decodeSymOperand_eq_ok.1 h
    exact ⟨rfl, rfl, rfl⟩
  · rw [decode_op_edge] at h
    cases h
    exact ⟨hfit, rfl, hback⟩
  · rw [decode_op_locate] at h
    cases h
    exact ⟨hfit, rfl, hback⟩
  · rw [decode_op_demod] at h
    cases h
    exact ⟨hfit, rfl, hback⟩
  · rw [decode_op_acq] at h
    obtain ⟨rfl, rfl⟩ := decodeNoOperand_eq_ok.1 h
    exact ⟨rfl, rfl, rfl⟩
  · rw [decode_op_reserved arg hres] at h
    cases h

/-- R51: a 32-bit operand is the value its field holds. -/
theorem toNat_operandField {n : Nat} (h : n < 2 ^ 32) : (BitVec.ofNat 32 n).toNat = n :=
  (BitVec.toNat_ofNat n 32).trans (Nat.mod_eq_of_lt h)

/-- R50 to R52: the word of a well-formed instruction decodes to it. -/
theorem decode_encode {i : Instr} (h : i.WellFormed) : decode (encode i) = .ok i := by
  cases i with
  | rst => exact (decode_op_rst _).trans (decodeNoOperand_eq_ok.2 ⟨rfl, rfl⟩)
  | append c => exact (decode_op_append _).trans (decodeSymOperand_eq_ok.2 ⟨c, rfl, rfl⟩)
  | edge e => exact (decode_op_edge _).trans (by rw [Instr.arg, toNat_operandField (of_decide_eq_true h)])
  | locate a => exact (decode_op_locate _).trans (by rw [Instr.arg, toNat_operandField (of_decide_eq_true h)])
  | demod a => exact (decode_op_demod _).trans (by rw [Instr.arg, toNat_operandField (of_decide_eq_true h)])
  | acq => exact (decode_op_acq _).trans (decodeNoOperand_eq_ok.2 ⟨rfl, rfl⟩)

/-- R53: which fields are no command's. -/
theorem decode_eq_error {op : Byte} {arg : Arg} : (∃ e, decode (encodeFields op arg) = .error e) ↔
    (op = 0x00 ∨ 0x07 ≤ op.toNat ∨ ((op = 0x01 ∨ op = 0x06) ∧ arg ≠ 0) ∨ (op = 0x02 ∧ 4 ≤ arg.toNat)) := by
  rcases op_cases op with rfl | rfl | rfl | rfl | rfl | rfl | hres
  · rw [decode_op_rst, decodeNoOperand_eq_error]
    simp
  · rw [decode_op_append, decodeSymOperand_eq_error]
    simp
  · rw [decode_op_edge]
    simp
  · rw [decode_op_locate]
    simp
  · rw [decode_op_demod]
    simp
  · rw [decode_op_acq, decodeNoOperand_eq_error]
    simp
  · exact iff_of_true ⟨_, decode_op_reserved arg hres⟩ (hres.imp_right .inl)

/-! ### The five bytes (R50) -/

/-- The value of two fields put together, the first above the second. -/
theorem toNat_append_eq_mul_add {m n : Nat} (x : BitVec m) (y : BitVec n) :
    (x ++ y).toNat = x.toNat * 2 ^ n + y.toNat := by
  rw [BitVec.toNat_append, ← Nat.shiftLeft_add_eq_or_of_lt y.isLt, Nat.shiftLeft_eq]

/-- R50: the first byte is `op`, the other four are `arg`. -/
theorem wordOfBytes_eq_encodeFields (b0 b1 b2 b3 b4 : Byte) :
    wordOfBytes b0 b1 b2 b3 b4 = encodeFields b0 (b1 ++ b2 ++ b3 ++ b4) := by
  apply BitVec.eq_of_toNat_eq
  simp only [wordOfBytes, encodeFields, toNat_append_eq_mul_add]
  omega

/-- R50: the four bytes of `arg`, most significant first. -/
theorem toNat_argBytes (b1 b2 b3 b4 : Byte) :
    (b1 ++ b2 ++ b3 ++ b4).toNat =
      b1.toNat * 2 ^ 24 + b2.toNat * 2 ^ 16 + b3.toNat * 2 ^ 8 + b4.toNat := by
  simp only [toNat_append_eq_mul_add]
  omega

/-- R50: a command word is five bytes. -/
theorem decodeBytes_wrongLength {bs : List Byte} (h : bs.length ≠ 5) : decodeBytes bs = .error .wrongLength := by
  unfold decodeBytes
  split
  · exact absurd rfl h
  · rfl

end Sys2Proof

namespace Sys2Proof.Machine

section
variable {s t : State}

/-- R53: a word that decodes to nothing is refused. -/
theorem runWord_of_decode_error {w : Word} {e : DecodeError} (h : decode w = .error e) :
    runWord w s = illegalCommand s := by
  simp only [runWord, h]

/-! ### The outcomes of the operations (R57) -/

/-- R103: the codec stage ends with a record or rejects the frame. -/
theorem codecOutcome_cases (x : Option CardRecord) :
    (∃ r, codecOutcome x = .success r) ∨ codecOutcome x = .formatReject := by
  cases x with
  | none => exact .inr rfl
  | some r => exact .inl ⟨r, rfl⟩

theorem appendSymbol_outcome {sym : Symbol} (h : appendSymbol sym s = .next t) :
    t.outcome = some (.stored sym s.writeIndex) ∨ t.outcome = some .dropped := by
  rcases appendSymbol_cases h with ⟨-, rfl⟩ | ⟨-, rfl⟩
  · exact .inr rfl
  · exact .inl rfl

/-! ### Where the code 3 and `InvalidTiming` come from (R54, R55, R131) -/

/-- R82: the locator's loop ends with `InvalidTiming` only at a cell that holds the code 3. -/
theorem locateLoop_invalidTiming {fuel i : Nat} {r : Run} (h : locateLoop s fuel i r = .ok .invalidTiming) :
    ∃ k, symRead s k = .ok .corrupt := by
  induction fuel generalizing i r with
  | zero => cases h
  | succ fuel ih =>
    rw [locateLoop] at h
    split at h
    · cases h
    · next hcell => exact ⟨i, hcell⟩
    · exact ih h
    · split at h
      · cases h
      · exact ih h

/-- R131: so no scan of a memory without the code 3 ends with it. -/
theorem State.NoCorrupt.locateScan_ne_invalidTiming (hs : s.NoCorrupt) (ss : Nat) :
    locateScan ss s ≠ .ok .invalidTiming := by
  intro h
  obtain ⟨k, hcell⟩ := locateLoop_invalidTiming h
  exact hs _ (Memory.mem_of_read (symRead_eq_ok.1 hcell).2) rfl

/-- R102: `ACQ` changes no cell. -/
theorem acquire_timeline {codec : Bits64 → Option CardRecord} (h : acquire codec s = .next t) :
    t.timeline = s.timeline := by
  rcases acquire_cases h with
    ⟨-, rfl⟩ | ⟨-, ⟨-, rfl⟩ | ⟨-, rfl⟩ | ⟨off, -, ⟨-, rfl⟩ | ⟨bits, -, rfl⟩⟩⟩ <;> rfl

/-- R55: the code 3 enters the memory by an append of it alone. -/
theorem appendSymbol_noCorrupt (hs : s.NoCorrupt) {sym : Symbol} (hsym : sym ≠ .corrupt)
    (h : appendSymbol sym s = .next t) : t.NoCorrupt := by
  rcases appendSymbol_cases h with ⟨-, rfl⟩ | ⟨-, rfl⟩
  · exact hs
  · intro e he
    rcases Memory.mem_write he with rfl | he
    · exact hsym
    · exact hs e he

theorem State.NoCorrupt.of_timeline (hs : s.NoCorrupt) (h : t.timeline = s.timeline) : t.NoCorrupt := by
  unfold State.NoCorrupt
  rwa [h]

/-- R54, R55: no instruction but `APPEND 3` puts the code 3 in a cell, since the classifier never answers it. -/
theorem exec_noCorrupt {i : Instr} (hs : s.NoCorrupt) (hi : i ≠ .append .corrupt) (h : exec i s = .next t) :
    t.NoCorrupt := by
  cases i with
  | rst =>
    rw [exec_rst] at h
    cases h
    exact hs
  | append sym => exact appendSymbol_noCorrupt hs (fun hsym => hi (hsym ▸ rfl)) h
  | edge e =>
    rcases execEdge_cases h with ⟨-, rfl⟩ | ⟨sym, hclass, happ⟩
    · exact hs
    · exact appendSymbol_noCorrupt hs (fun hsym => classify_ne_corrupt e (hsym ▸ hclass)) happ
  | locate ss => exact hs.of_timeline (execLocate_timeline h)
  | demod fs => exact hs.of_timeline (execDemod_timeline h)
  | acq => exact hs.of_timeline (acquire_timeline h)

/-- R84, R131: `LOCATE` ends with `InvalidTiming` only when its scan does. -/
theorem execLocate_invalidTiming {ss : Nat} (h : execLocate ss s = .next t) (ho : t.outcome = some .invalidTiming) :
    locateScan ss s = .ok .invalidTiming := by
  rcases execLocate_cases h with ⟨-, rfl⟩ | ⟨-, ⟨off, -, rfl⟩ | ⟨-, rfl⟩ | ⟨hscan, rfl⟩⟩
  case inr.inr.inr => exact hscan
  all_goals cases ho

/-- R101, R131: so does `ACQ`. -/
theorem acquire_invalidTiming {codec : Bits64 → Option CardRecord} (h : acquire codec s = .next t)
    (ho : t.outcome = some .invalidTiming) : locateScan 0 s = .ok .invalidTiming := by
  rcases acquire_cases h with
    ⟨-, rfl⟩ | ⟨-, ⟨hscan, rfl⟩ | ⟨-, rfl⟩ | ⟨off, -, ⟨-, rfl⟩ | ⟨bits, -, rfl⟩⟩⟩
  case inr.inl => exact hscan
  case inr.inr.inr.inr =>
    rw [handBack_outcome] at ho
    rcases codecOutcome_cases (codec bits) with ⟨r, hr⟩ | hr <;> simp [hr] at ho
  all_goals cases ho

end

/-! ### The statements -/

/-- Settles O2: the decoder reads back the two fields the encoder wrote. -/
theorem decodeOfEncode : Obligations.DecodeOfEncode := fun _ => decode_encode

/-- Settles O3: a word is its two fields, and those a decoded instruction came from are its own. -/
theorem encodeOfDecode : Obligations.EncodeOfDecode := by
  intro w i h
  rw [← encodeFields_fields w] at h
  obtain ⟨hwf, hop, harg⟩ := fields_of_decode h
  exact ⟨hwf, by rw [encode, hop, harg, encodeFields_fields]⟩

/-- Settles O4: a word is its two fields, and the fields decide. -/
theorem illegalWordsExactly : Obligations.IllegalWordsExactly := by
  intro w
  have h := decode_eq_error (op := opField w) (arg := argField w)
  rwa [encodeFields_fields] at h

/-- Settles O36: each path of each operation names its outcome. -/
theorem outcomesOfEachOperation : Obligations.OutcomesOfEachOperation := by
  intro i s t h
  cases i with
  | rst =>
    rw [exec_rst] at h
    cases h
    exact ⟨_, rfl, rfl⟩
  | append sym =>
    rcases appendSymbol_outcome h with ho | ho
    · exact ⟨_, ho, .inl rfl⟩
    · exact ⟨_, ho, .inr rfl⟩
  | edge e =>
    rcases execEdge_cases h with ⟨-, rfl⟩ | ⟨sym, -, happ⟩
    · exact ⟨_, rfl, .inr (.inr rfl)⟩
    · rcases appendSymbol_outcome happ with ho | ho
      · exact ⟨_, ho, .inl ⟨sym, rfl⟩⟩
      · exact ⟨_, ho, .inr (.inl rfl)⟩
  | locate ss =>
    rcases execLocate_cases h with ⟨-, rfl⟩ | ⟨-, ⟨off, -, rfl⟩ | ⟨-, rfl⟩ | ⟨-, rfl⟩⟩ <;>
      exact ⟨_, rfl, by simp⟩
  | demod fs =>
    rcases execDemod_cases h with ⟨-, rfl⟩ | ⟨-, ⟨bits, -, rfl⟩ | ⟨-, rfl⟩⟩ <;>
      exact ⟨_, rfl, by simp⟩
  | acq =>
    rcases acquire_cases h with
      ⟨-, rfl⟩ | ⟨-, ⟨-, rfl⟩ | ⟨-, rfl⟩ | ⟨off, -, ⟨-, rfl⟩ | ⟨bits, -, rfl⟩⟩⟩
    case inr.inr.inr.inr =>
      rcases codecOutcome_cases (Config.codecDecode bits) with ⟨r, hr⟩ | hr <;>
        exact ⟨_, rfl, by simp [hr]⟩
    all_goals exact ⟨_, rfl, by simp⟩

/-- Settles O22: the outcome table leaves `LOCATE` and `ACQ`, whose scan needs a cell with the code 3. -/
theorem invalidTimingNeedsCorrupt : Obligations.InvalidTimingNeedsCorrupt := by
  intro i s t hs hi h
  refine ⟨exec_noCorrupt hs hi h, fun ho => ?_⟩
  cases i with
  | locate ss => exact hs.locateScan_ne_invalidTiming ss (execLocate_invalidTiming h ho)
  | acq => exact hs.locateScan_ne_invalidTiming 0 (acquire_invalidTiming h ho)
  | rst | append _ | edge _ | demod _ =>
    obtain ⟨o, ho', hrow⟩ := outcomesOfEachOperation _ s t h
    rw [ho] at ho'
    cases ho'
    simp at hrow

/-- Settles O1: the bytes of a table word decode as the word does, and the decoder evaluates on each of the twelve. -/
theorem tableWordsDecode : Obligations.TableWordsDecode := by
  unfold Obligations.TableWordsDecode
  simp only [decodeTableWord, decodeBytes_bytesOfWord]
  decide

/-- Settles O5: the five bytes are the two fields, and every list of another length takes the decoder's last arm. -/
theorem bytesOpFirst : Obligations.BytesOpFirst := by
  refine ⟨fun b0 b1 b2 b3 b4 => ⟨?_, ?_, rfl⟩, fun bs => decodeBytes_wrongLength⟩
  · rw [wordOfBytes_eq_encodeFields, opField_encodeFields]
  · rw [wordOfBytes_eq_encodeFields, argField_encodeFields, toNat_argBytes]

/-- Settles O7: the step takes the word, and the word is refused. -/
theorem stepOnIllegalCommand : Obligations.StepOnIllegalCommand := by
  intro s w rest e hin hdec
  rw [step_of_input_cons hin, runWord_of_decode_error hdec]
  rfl

/-- Settles O23: by the arms of the pair code. -/
theorem pairMapping : Obligations.PairMapping := by
  intro a b x
  unfold pairBit
  split
  · simp [eq_comm]
  · simp [eq_comm]
  · next hzero hone =>
    refine iff_of_false (by simp) ?_
    rintro (⟨rfl, rfl, -⟩ | ⟨rfl, rfl, -⟩)
    · exact hzero rfl rfl
    · exact hone rfl rfl

/-- Settles O37: no number depends on the values handed back, and each lies in the range of its kind alone. -/
theorem outcomeNumbers : Obligations.OutcomeNumbers := by
  refine ⟨rfl, fun _ _ => rfl, rfl, rfl, fun _ => rfl, fun _ => rfl, fun _ => rfl, rfl, rfl, rfl, rfl, rfl, rfl, rfl, rfl,
    fun o => ?_⟩
  cases o <;> simp [OpOutcome.kind, OpOutcome.code]

/-- Settles O44: the counts 64 and 96 lie in the bands of 0 and 1, and either order of the two is a bit's pair. -/
theorem bitEdgesEncodeTheBit : Obligations.BitEdgesEncodeTheBit := by
  have hshort : classify 64 = some .short := by decide
  have hlong : classify 96 = some .long := by decide
  intro b
  cases b with
  | false => exact ⟨64, 96, .short, .long, rfl, hshort, hlong, rfl⟩
  | true => exact ⟨96, 64, .long, .short, rfl, hlong, hshort, rfl⟩

end Sys2Proof.Machine
end

section
/-! PROOF. The statements of 40_capture.md: the bands of the classifier (R70), the append (R71), the edge (R72) and the capture
reset (R73). -/

namespace Sys2Proof.Machine

/-! ### The bands of the classifier (R5, R70) -/

section
variable {e : Nat}

theorem classify_eq_none (h : e ≤ 47) : classify e = none := by
  simp [classify, h]

theorem classify_eq_short (hlo : 48 ≤ e) (hhi : e ≤ 80) : classify e = some .short := by
  have hignore : ¬ e ≤ 47 := by omega
  simp [classify, hignore, hhi]

theorem classify_eq_long (hlo : 81 ≤ e) (hhi : e ≤ 112) : classify e = some .long := by
  have hignore : ¬ e ≤ 47 := by omega
  have hshort : ¬ e ≤ 80 := by omega
  simp [classify, hignore, hshort, hhi]

theorem classify_eq_invalid (h : 113 ≤ e) : classify e = some .invalid := by
  have hignore : ¬ e ≤ 47 := by omega
  have hshort : ¬ e ≤ 80 := by omega
  have hlong : ¬ e ≤ 112 := by omega
  simp [classify, hignore, hshort, hlong]

end

/-! ### The edge, by its classification (R72) -/

section
variable {s : State} {e : Nat}

theorem execEdge_of_classify_none (h : classify e = none) : execEdge e s = .next (s.handBack .ignored) := by
  simp [execEdge, h, endWith]

theorem execEdge_of_classify_some {sym : Symbol} (h : classify e = some sym) : execEdge e s = appendSymbol sym s := by
  simp [execEdge, h]

end

/-! ### The statements -/

/-- Settles O9: a lemma per band, and every band's answer is another than the code 3. -/
theorem classifyBands : Obligations.ClassifyBands :=
  fun e => ⟨classify_eq_none, classify_eq_short, classify_eq_long, classify_eq_invalid, classify_ne_corrupt e⟩

/-- Settles O10: `APPEND` is the append of its operand, here below the capacity. -/
theorem appendStores : Obligations.AppendStores :=
  fun sym _ hfill => appendSymbol_filling sym hfill

/-- Settles O11: `APPEND` is the append of its operand, here at the capacity. -/
theorem appendDropped : Obligations.AppendDropped :=
  fun sym _ hready => appendSymbol_ready sym hready

/-- Settles O12: an edge hands back `ignored` or performs the append of its symbol, which stores or drops by the index. -/
theorem edgeClassifiesAndAppends : Obligations.EdgeClassifiesAndAppends := by
  intro e s
  refine ⟨execEdge_of_classify_none, fun sym hclass hfill => ?_, fun sym hclass hready => ?_⟩
  · exact (execEdge_of_classify_some hclass).trans (appendSymbol_filling sym hfill)
  · exact (execEdge_of_classify_some hclass).trans (appendSymbol_ready sym hready)

/-- Settles O13: `RST` is the capture reset, and the capture reset writes the index alone. -/
theorem rstClearsIndexOnly : Obligations.RstClearsIndexOnly :=
  fun _ => exec_rst

end Sys2Proof.Machine
end

section
/-! PROOF. The statements of 41_preamble_locator.md: the gate (R80), the loop of the scan against its loop-free reading (R82, R83),
the range it reads (R81, R85) and the offset it finds (R13, R84). -/

namespace Sys2Proof.Machine

/-- The cells from `a` up to, not including, `b` hold symbols 0 or 1, no two neighbours alike (R83). -/
def Alternates (s : State) (a b : Nat) : Prop :=
  (∀ k, a ≤ k → k < b → isBinary s k) ∧ (∀ k, a ≤ k → k + 1 < b → s.timeline.read k ≠ s.timeline.read (k + 1))

/-- R82: after the cells before `i`, the alternating stretches that end just before `i` are those begun within the last
`r.count` cells, `r.prev` being the last symbol. -/
structure Run.Tracks (r : Run) (s : State) (ss i : Nat) : Prop where
  ends : r.EndsAt i
  room : ss + r.count ≤ i
  stretch : ∀ j, ss ≤ j → j ≤ i → (Alternates s j i ↔ i ≤ j + r.count)
  prev : 0 < r.count → ∀ k, k + 1 = i → s.timeline.read k = some r.prev

/-- R82: what the loop knows when the cells before `i` are examined and it goes on. -/
structure Scanned (s : State) (ss i : Nat) (r : Run) : Prop where
  tracks : r.Tracks s ss i
  short : r.count < 10
  noHit : ∀ j, j + 10 ≤ i → ¬ IsHit s ss j
  noCorrupt : ¬ CorruptBefore s ss i

/-- R83: what each way the scan ends says of the cells. -/
def LocateResult.Describes (s : State) (ss : Nat) : LocateResult → Prop
  | .found j => FirstHit s ss j ∧ ¬ CorruptBefore s ss (j + 10)
  | .noPreamble => (∀ j, ¬ IsHit s ss j) ∧ ¬ CorruptBefore s ss (scanEnd s.rawCapacity ss)
  | .invalidTiming =>
    ∃ c, ss ≤ c ∧ c < scanEnd s.rawCapacity ss ∧ s.timeline.read c = some .corrupt ∧ ∀ j, j + 10 ≤ c → ¬ IsHit s ss j

/-- The outcome `LOCATE` hands back (R84). -/
def LocateResult.outcome : LocateResult → OpOutcome
  | .found offset => .found offset
  | .noPreamble => .noPreamble
  | .invalidTiming => .invalidTiming

section
variable {s t : State} {ss i j : Nat} {r : Run} {c : Symbol}

/-! ### Alternating stretches and hits (R83) -/

/-- The range of R81 with its literals. -/
theorem scanEnd_eq (cap ss : Nat) : scanEnd cap ss = min (ss + 50) (cap - 100) := rfl

theorem alternates_self : Alternates s i i :=
  ⟨fun _ hlo hhi => by omega, fun _ hlo hhi => by omega⟩

/-- A stretch ends one cell later when that cell's symbol is 0 or 1 and differs from the one before. -/
theorem alternates_succ (h : j ≤ i) :
    Alternates s j (i + 1) ↔
      Alternates s j i ∧ isBinary s i ∧ ∀ k, j ≤ k → k + 1 = i → s.timeline.read k ≠ s.timeline.read i := by
  constructor
  · rintro ⟨hbin, hne⟩
    refine ⟨⟨fun k hlo hhi => hbin k hlo (by omega), fun k hlo hhi => hne k hlo (by omega)⟩, hbin i h (by omega), ?_⟩
    rintro k hlo rfl
    exact hne k hlo (by omega)
  · rintro ⟨⟨hbin, hne⟩, hlast, hdiff⟩
    refine ⟨fun k hlo hhi => ?_, fun k hlo hhi => ?_⟩
    · rcases Nat.lt_succ_iff_lt_or_eq.1 hhi with hk | rfl
      · exact hbin k hlo hk
      · exact hlast
    · rcases Nat.lt_succ_iff_lt_or_eq.1 hhi with hk | rfl
      · exact hne k hlo hk
      · exact hdiff k hlo rfl

/-- A hit is a stretch of ten inside the scanned range. -/
theorem isHit_iff : IsHit s ss j ↔ ss ≤ j ∧ j + 10 ≤ scanEnd s.rawCapacity ss ∧ Alternates s j (j + 10) := by
  constructor
  · rintro ⟨hlo, hhi, hbin, hne⟩
    refine ⟨hlo, hhi, fun k hk hk' => ?_, fun k hk hk' => ?_⟩
    all_goals obtain ⟨d, rfl⟩ := Nat.exists_eq_add_of_le hk
    · exact hbin d (by omega)
    · exact hne d (by omega)
  · rintro ⟨hlo, hhi, hbin, hne⟩
    exact ⟨hlo, hhi, fun k hk => hbin _ (by omega) (by omega), fun k hk => hne _ (by omega) (by omega)⟩

theorem FirstHit.unique {j' : Nat} (h : FirstHit s ss j) (h' : FirstHit s ss j') : j = j' := by
  rcases Nat.lt_trichotomy j j' with hlt | heq | hgt
  · exact absurd h.1 (h'.2 j hlt)
  · exact heq
  · exact absurd h'.1 (h.2 j' hgt)

/-- Two neighbours that differ, each 0 or 1, are 0 then 1 or 1 then 0. -/
theorem isBinary.alternate (hi : isBinary s i) (hj : isBinary s j) (hne : s.timeline.read i ≠ s.timeline.read j) :
    (s.timeline.read i = some .short ∧ s.timeline.read j = some .long) ∨
    (s.timeline.read i = some .long ∧ s.timeline.read j = some .short) := by
  rcases hi with hi | hi <;> rcases hj with hj | hj
  · exact absurd (hi.trans hj.symm) hne
  · exact .inl ⟨hi, hj⟩
  · exact .inr ⟨hi, hj⟩
  · exact absurd (hi.trans hj.symm) hne

theorem isBinary_of_read (h : s.timeline.read i = some c) (hcorrupt : c ≠ .corrupt) (hinvalid : c ≠ .invalid) :
    isBinary s i := by
  cases c with
  | short => exact .inl h
  | long => exact .inr h
  | invalid => exact absurd rfl hinvalid
  | corrupt => exact absurd rfl hcorrupt

theorem not_isBinary_of_invalid (h : s.timeline.read i = some .invalid) : ¬ isBinary s i := by
  simp [isBinary, h]

/-- A cell of another code adds no corrupt cell. -/
theorem not_corruptBefore_succ (h : ¬ CorruptBefore s ss i) (hcell : s.timeline.read i = some c) (hc : c ≠ .corrupt) :
    ¬ CorruptBefore s ss (i + 1) := by
  rintro ⟨k, hlo, hhi, hk⟩
  rcases Nat.lt_succ_iff_lt_or_eq.1 hhi with hlt | rfl
  · exact h ⟨k, hlo, hlt, hk⟩
  · exact hc (Option.some.inj (hcell.symm.trans hk))

/-! ### The run, symbol by symbol (R82) -/

theorem Run.empty_tracks : Run.empty.Tracks s ss ss where
  ends := .inl rfl
  room := le_rfl
  stretch j hlo hhi := by
    obtain rfl : j = ss := by omega
    exact iff_of_true alternates_self (Nat.le_add_right _ _)
  prev h := absurd h (Nat.lt_irrefl 0)

/-- A cell with the code 2 ends every stretch. -/
theorem Run.Tracks.reset (h : r.Tracks s ss i) (hcell : s.timeline.read i = some .invalid) :
    Run.Tracks { r with count := 0 } s ss (i + 1) where
  ends := .inl rfl
  room := by
    have := h.room
    show ss + 0 ≤ i + 1
    omega
  stretch j hlo hhi := by
    rcases Nat.le_succ_iff.1 hhi with hle | rfl
    · rw [alternates_succ hle]
      exact iff_of_false (fun halt => not_isBinary_of_invalid hcell halt.2.1) (by simp; omega)
    · exact iff_of_true alternates_self (Nat.le_add_right _ _)
  prev hpos := absurd hpos (Nat.lt_irrefl 0)

/-- A symbol unlike the one before lengthens every stretch by one. -/
theorem Run.Tracks.lengthen (h : r.Tracks s ss i) (hcell : s.timeline.read i = some c) (hbin : isBinary s i)
    (hpos : 0 < r.count) (hne : c ≠ r.prev) (hj : ss ≤ j) (hji : j ≤ i) :
    Alternates s j (i + 1) ↔ i ≤ j + r.count := by
  rw [alternates_succ hji, h.stretch j hj hji]
  refine and_iff_left ⟨hbin, fun k _ hk heq => hne ?_⟩
  exact Option.some.inj (hcell.symm.trans (heq.symm.trans (h.prev hpos k hk)))

/-- A symbol like the one before, or after no run, is a stretch of its own alone. -/
theorem Run.Tracks.restart (h : r.Tracks s ss i) (hcell : s.timeline.read i = some c) (hbin : isBinary s i)
    (hnew : ¬ (0 < r.count ∧ c ≠ r.prev)) (hj : ss ≤ j) (hji : j ≤ i) :
    Alternates s j (i + 1) ↔ j = i := by
  rw [alternates_succ hji]
  constructor
  · rintro ⟨halt, -, hdiff⟩
    by_contra hne
    obtain ⟨k, rfl⟩ : ∃ k, i = k + 1 := ⟨i - 1, by omega⟩
    have hpos : 0 < r.count := by
      have := (h.stretch j hj hji).1 halt
      omega
    have hsame : c = r.prev := by
      by_contra hc
      exact hnew ⟨hpos, hc⟩
    exact hdiff k (by omega) rfl (by rw [h.prev hpos k rfl, hcell, hsame])
  · rintro rfl
    exact ⟨alternates_self, hbin, fun k hlo hk => by omega⟩

/-- R82, D9: extending the run by a symbol 0 or 1 tracks the stretches that end with it. -/
theorem Run.Tracks.extend (h : r.Tracks s ss i) (hcell : s.timeline.read i = some c) (hbin : isBinary s i) :
    (r.extend i c).Tracks s ss (i + 1) := by
  obtain ⟨-, hends, hprev⟩ := Run.extend_endsAt h.ends c
  have hroom := h.room
  refine ⟨.inr hends, ?_, fun j hlo hhi => ?_, fun _ k hk => ?_⟩
  · unfold Run.extend
    split <;> simp <;> omega
  · rcases Nat.le_succ_iff.1 hhi with hle | rfl
    · unfold Run.extend
      split
      · next hgo =>
        rw [h.lengthen hcell hbin hgo.1 hgo.2 hlo hle]
        simp
        omega
      · next hnew =>
        rw [h.restart hcell hbin hnew hlo hle]
        simp
        omega
    · exact iff_of_true alternates_self (Nat.le_add_right _ _)
  · obtain rfl : k = i := Nat.succ.inj hk
    rw [hcell, hprev]

theorem Run.extend_count_le : (r.extend i c).count ≤ r.count + 1 := by
  unfold Run.extend
  split <;> simp

/-! ### The loop against its loop-free reading (R83) -/

/-- A run of fewer than ten symbols that ends with the cell at `i` leaves no hit that ends there. -/
theorem Run.Tracks.noHit_succ (h : r.Tracks s ss (i + 1)) (hshort : r.count < 10)
    (hbefore : ∀ j, j + 10 ≤ i → ¬ IsHit s ss j) : ∀ j, j + 10 ≤ i + 1 → ¬ IsHit s ss j := by
  intro j hj hhit
  rcases Nat.le_succ_iff.1 hj with hle | heq
  · exact hbefore j hle hhit
  · obtain ⟨hlo, -, halt⟩ := isHit_iff.1 hhit
    rw [heq, h.stretch j hlo (by omega)] at halt
    omega

/-- What the loop knows survives a cell that is not corrupt and completes no run of ten. -/
theorem Scanned.next {r' : Run} (h : Scanned s ss i r) (ht : r'.Tracks s ss (i + 1)) (hshort : r'.count < 10)
    (hcell : s.timeline.read i = some c) (hc : c ≠ .corrupt) : Scanned s ss (i + 1) r' :=
  ⟨ht, hshort, ht.noHit_succ hshort h.noHit, not_corruptBefore_succ h.noCorrupt hcell hc⟩

/-- A run of ten that ends with the cell at `i` is the first hit. -/
theorem Scanned.found {r' : Run} (h : Scanned s ss i r) (ht : r'.Tracks s ss (i + 1)) (hten : r'.count = 10)
    (hi : i < scanEnd s.rawCapacity ss) (hcell : s.timeline.read i = some c) (hc : c ≠ .corrupt) :
    (LocateResult.found r'.start).Describes s ss := by
  have hend : r'.start + 10 = i + 1 := by
    rcases ht.ends with h0 | hend
    · omega
    · rwa [hten] at hend
  have hlo : ss ≤ r'.start := by
    have := ht.room
    omega
  refine ⟨⟨isHit_iff.2 ⟨hlo, by omega, ?_⟩, fun j hj => h.noHit j (by omega)⟩, ?_⟩
  · rw [hend, ht.stretch _ hlo (by omega)]
    omega
  · rw [hend]
    exact not_corruptBefore_succ h.noCorrupt hcell hc

/-- The loop has examined every cell of its range. -/
theorem Scanned.exhausted (h : Scanned s ss i r) (hi : scanEnd s.rawCapacity ss ≤ i) :
    LocateResult.noPreamble.Describes s ss := by
  refine ⟨fun j hhit => h.noHit j ?_ hhit, fun ⟨k, hlo, hhi, hk⟩ => h.noCorrupt ⟨k, hlo, by omega, hk⟩⟩
  obtain ⟨-, hend, -⟩ := isHit_iff.1 hhit
  omega

/-- R83: by induction on the symbols still to be examined. -/
theorem locateLoop_describes {fuel : Nat} {x : LocateResult} (hfuel : fuel = scanEnd s.rawCapacity ss - i)
    (h : Scanned s ss i r) (hx : locateLoop s fuel i r = .ok x) : x.Describes s ss := by
  induction fuel generalizing i r with
  | zero =>
    cases hx
    exact h.exhausted (by omega)
  | succ fuel ih =>
    have hi : i < scanEnd s.rawCapacity ss := by omega
    have hrest : fuel = scanEnd s.rawCapacity ss - (i + 1) := by omega
    have hlo : ss ≤ i := le_trans (Nat.le_add_right _ _) h.tracks.room
    rw [locateLoop] at hx
    split at hx
    · cases hx
    · next hread =>
      cases hx
      exact ⟨i, hlo, hi, (symRead_eq_ok.1 hread).2, h.noHit⟩
    · next hread =>
      have hcell := (symRead_eq_ok.1 hread).2
      exact ih hrest (h.next (h.tracks.reset hcell) (by simp) hcell (by simp)) hx
    · next c hcorrupt hinvalid hread =>
      have hcell := (symRead_eq_ok.1 hread).2
      have ht := h.tracks.extend hcell (isBinary_of_read hcell hcorrupt hinvalid)
      split at hx
      · next hten =>
        cases hx
        exact h.found ht hten hi hcell hcorrupt
      · next hten =>
        have hshort : (r.extend i c).count < 10 :=
          lt_of_le_of_ne (Run.extend_count_le.trans h.short) hten
        exact ih hrest (h.next ht hshort hcell hcorrupt) hx

theorem scanned_start : Scanned s ss ss Run.empty where
  tracks := Run.empty_tracks
  short := by decide
  noHit j hj hhit := by
    have := hhit.1
    omega
  noCorrupt := fun ⟨k, hlo, hhi, _⟩ => by omega

/-- R83: a scan that ends without a fault ends as the cells of its range say. -/
theorem locateScan_describes {x : LocateResult} (h : locateScan ss s = .ok x) : x.Describes s ss :=
  locateLoop_describes rfl scanned_start h

/-! ### The way the scan ends, from the cells (R83) -/

/-- The first hit comes first: no corrupt cell lies before its end. -/
theorem LocateResult.Describes.eq_found {x : LocateResult} (hx : x.Describes s ss) (hj : FirstHit s ss j)
    (hc : ¬ CorruptBefore s ss (j + 10)) : x = .found j := by
  cases x with
  | found j' => rw [hj.unique hx.1]
  | noPreamble => exact absurd hj.1 (hx.1 j)
  | invalidTiming =>
    obtain ⟨c, hlo, -, hcell, hno⟩ := hx
    have hend : j + 10 ≤ c := by
      by_contra hlt
      exact hc ⟨c, hlo, by omega, hcell⟩
    exact absurd hj.1 (hno j hend)

/-- A corrupt cell lies before the end of the first hit. -/
theorem LocateResult.Describes.eq_invalidTiming_of_firstHit {x : LocateResult} (hx : x.Describes s ss)
    (hj : FirstHit s ss j) (hc : CorruptBefore s ss (j + 10)) : x = .invalidTiming := by
  cases x with
  | found j' =>
    rw [hj.unique hx.1] at hc
    exact absurd hc hx.2
  | noPreamble => exact absurd hj.1 (hx.1 j)
  | invalidTiming => rfl

/-- No hit, and a corrupt cell in the range. -/
theorem LocateResult.Describes.eq_invalidTiming_of_noHit {x : LocateResult} (hx : x.Describes s ss)
    (hno : ∀ j, ¬ IsHit s ss j) (hc : CorruptBefore s ss (scanEnd s.rawCapacity ss)) : x = .invalidTiming := by
  cases x with
  | found j => exact absurd hx.1.1 (hno j)
  | noPreamble => exact absurd hc hx.2
  | invalidTiming => rfl

/-- No hit, and no corrupt cell in the range. -/
theorem LocateResult.Describes.eq_noPreamble {x : LocateResult} (hx : x.Describes s ss)
    (hno : ∀ j, ¬ IsHit s ss j) (hc : ¬ CorruptBefore s ss (scanEnd s.rawCapacity ss)) : x = .noPreamble := by
  cases x with
  | found j => exact absurd hx.1.1 (hno j)
  | noPreamble => rfl
  | invalidTiming =>
    obtain ⟨c, hlo, hhi, hcell, -⟩ := hx
    exact absurd ⟨c, hlo, hhi, hcell⟩ hc

/-! ### `LOCATE`, from its scan (R80, R84) -/

/-- R84: the outcome is the way the scan ended. -/
theorem execLocate_outcome (hw : s.writeIndex = s.rawCapacity) (h : execLocate ss s = .next t) :
    ∃ x, locateScan ss s = .ok x ∧ t.outcome = some x.outcome := by
  rcases execLocate_cases h with ⟨hne, -⟩ | ⟨-, ⟨off, hscan, rfl⟩ | ⟨hscan, rfl⟩ | ⟨hscan, rfl⟩⟩
  · exact absurd hw hne
  all_goals exact ⟨_, hscan, rfl⟩

/-- R84: an offset handed back is the one the scan found, and stands in the register. -/
theorem execLocate_found {off : Nat} (h : execLocate ss s = .next t) (ho : t.outcome = some (.found off)) :
    locateScan ss s = .ok (.found off) ∧ t.frameStart = off := by
  rcases execLocate_cases h with ⟨-, rfl⟩ | ⟨-, ⟨off', hscan, rfl⟩ | ⟨-, rfl⟩ | ⟨-, rfl⟩⟩ <;> cases ho
  exact ⟨hscan, rfl⟩

/-- R80: the gate of `LOCATE`. -/
theorem execLocate_filling (ss : Nat) (h : s.writeIndex < s.rawCapacity) :
    execLocate ss s = .next (s.handBack .notReady) :=
  if_pos h.ne

/-- R90: the gate of `DEMOD`. -/
theorem execDemod_filling (fs : Nat) (h : s.writeIndex < s.rawCapacity) :
    execDemod fs s = .next (s.handBack .notReady) :=
  if_pos h.ne

end

/-! ### The statements -/

/-- Settles O17: the gate of each operation. -/
theorem readersRefusedWhileFilling : Obligations.ReadersRefusedWhileFilling :=
  fun _ a h => ⟨execLocate_filling a h, execDemod_filling a h⟩

/-- Settles O19: the scan of a complete window faults nowhere, and the way it ends describes the cells. -/
theorem locateFindsFirstHit : Obligations.LocateFindsFirstHit := by
  intro s ss hs
  obtain ⟨x, hscan⟩ := locateScan_ok hs.written ss
  have hx := locateScan_describes hscan
  have hexec := execLocate_of_scan x hs.2 hscan
  refine ⟨fun j hj => ⟨fun hc => ?_, fun hc => ?_⟩, fun hno => ⟨fun hc => ?_, fun hc => ?_⟩⟩
  · obtain rfl := hx.eq_invalidTiming_of_firstHit hj hc
    exact hexec
  · obtain rfl := hx.eq_found hj hc
    exact hexec
  · obtain rfl := hx.eq_invalidTiming_of_noHit hno hc
    exact hexec
  · obtain rfl := hx.eq_noPreamble hno hc
    exact hexec

/-- Settles O20: windows that agree on the range are scanned alike, and the scan decides the outcome. -/
theorem locateReadsOnlyItsRange : Obligations.LocateReadsOnlyItsRange := by
  intro s t s' t' ss hs ht hcap hcells hexec hexec'
  have hscan : locateScan ss s = locateScan ss t :=
    locateScan_congr ss hcap (by rwa [← hcap, scanEnd_eq])
  obtain ⟨x, hx, ho⟩ := execLocate_outcome hs hexec
  obtain ⟨x', hx', ho'⟩ := execLocate_outcome ht hexec'
  rw [hscan, hx'] at hx
  cases hx
  rw [ho, ho']

/-- Settles O21: the offset found is a hit. -/
theorem foundOffsetInRange : Obligations.FoundOffsetInRange := by
  intro s t ss off _ hexec ho
  obtain ⟨hscan, hreg⟩ := execLocate_found hexec ho
  obtain ⟨⟨⟨hlo, hhi, hbin, hne⟩, -⟩, -⟩ := locateScan_describes hscan
  exact ⟨hreg, hlo, hhi, locateScan_found_lt hscan, fun k hk =>
    (hbin k (by omega)).alternate (hbin (k + 1) (by omega)) (hne k hk)⟩

end Sys2Proof.Machine
end

section
/-! PROOF. The statements of 42_manchester_demodulator.md: the loop against its loop-free reading (R91 to R96), the pair that
ends it (R92, R93), and the cells it reads (R97, R98). -/

namespace Sys2Proof.Machine

/-- The outcome `DEMOD` hands back (R96). -/
def demodOutcome : Option Bits64 → OpOutcome
  | some bits => .demodulated bits
  | none => .manchesterError

section
variable {s t : State} {fs n m : Nat} {v : Bits64}

/-! ### Pairs and the number of bits (R92 to R95) -/

/-- R91: a pair whose two cells exist and were written is decoded from them. -/
theorem pairAt_of_cells {a b : Symbol} (hlt : fs + 10 + 2 * n + 1 < s.rawCapacity)
    (ha : s.timeline.read (fs + 10 + 2 * n) = some a) (hb : s.timeline.read (fs + 10 + 2 * n + 1) = some b) :
    pairAt s fs n = pairBit a b := by
  rw [pairAt, if_pos hlt, ha, hb]

/-- R92: a pair that is neither (0,1) nor (1,0) is disallowed. -/
theorem pairBit_disallowed {a b : Symbol} (hzero : ¬ (a = .short ∧ b = .long)) (hone : ¬ (a = .long ∧ b = .short)) :
    pairBit a b = none := by
  refine Option.eq_none_iff_forall_not_mem.2 fun x hx => ?_
  rcases (pairMapping a b x).1 hx with ⟨ha, hb, -⟩ | ⟨ha, hb, -⟩
  · exact hzero ⟨ha, hb⟩
  · exact hone ⟨ha, hb⟩

/-- The bits produced end no later than any other count at which they could end. -/
theorem ProducesBits.le (hn : ProducesBits s fs n) (hm : ProducesBits s fs m) : n ≤ m := by
  obtain ⟨hn64, hdecode, -⟩ := hn
  obtain ⟨-, -, rfl | hend⟩ := hm
  · exact hn64
  · by_contra hlt
    simpa [hend] using hdecode m (by omega)

theorem ProducesBits.unique (hn : ProducesBits s fs n) (hm : ProducesBits s fs m) : n = m :=
  le_antisymm (hn.le hm) (hm.le hn)

/-! ### The buffer, bit by bit (R96) -/

theorem holdsBits_clear : HoldsBits s fs 0 bitClearAll := fun k _ => by simp

/-- Writing the bit of pair `n` at position `n` keeps the buffer in step with the pairs. -/
theorem HoldsBits.write {b : Bool} (h : HoldsBits s fs n v) (hn : n < 64) (hpair : pairAt s fs n = some b) :
    HoldsBits s fs (n + 1) (setBitAt v n b) := by
  intro k hk
  rw [bitAt_setBitAt v b hn hk, h k hk]
  by_cases hkn : k = n
  · subst hkn
    simp [hpair]
  · have hbelow : k < n + 1 ↔ k < n := by omega
    simp [hkn, hbelow]

/-! ### The loop against its loop-free reading (R91 to R96) -/

/-- From a buffer in step with the first `n` pairs, the loop goes on to the number of bits produced; 35 or more are a success.
By induction on the bits that still fit. -/
theorem demodLoop_produces (hw : ∀ k < s.rawCapacity, (s.timeline.read k).isSome) {fuel : Nat} (hfuel : n + fuel = 64)
    (hdecode : ∀ k < n, (pairAt s fs k).isSome) (hv : HoldsBits s fs n v) :
    ∃ m w, ProducesBits s fs m ∧ HoldsBits s fs m w ∧
      demodLoop s (fs + 10) fuel n v = .ok (if 35 ≤ m then some w else none) := by
  induction fuel generalizing n v with
  | zero =>
    obtain rfl : n = 64 := hfuel
    exact ⟨64, v, ⟨le_rfl, hdecode, .inl rfl⟩, hv, rfl⟩
  | succ fuel ih =>
    rw [demodLoop, readPair_eq hw]
    cases hpair : pairAt s fs n with
    | none =>
      refine ⟨n, v, ⟨by omega, hdecode, .inr hpair⟩, hv, ?_⟩
      by_cases h35 : 35 ≤ n <;> simp [h35]
    | some b =>
      have hn : n < 64 := by omega
      have hdecode' : ∀ k < n + 1, (pairAt s fs k).isSome :=
        Nat.forall_lt_succ_right.2 ⟨hdecode, Option.isSome_of_eq_some hpair⟩
      simpa only [bitWrite_eq_ok.2 ⟨hn, rfl⟩] using ih (by omega) hdecode' (hv.write hn hpair)

/-- R97: the whole demodulation, from a cleared buffer. -/
theorem demodScan_produces (hw : ∀ k < s.rawCapacity, (s.timeline.read k).isSome) (fs : Nat) :
    ∃ n v, ProducesBits s fs n ∧ HoldsBits s fs n v ∧ demodScan fs s = .ok (if 35 ≤ n then some v else none) :=
  demodLoop_produces hw rfl (fun _ hk => absurd hk (Nat.not_lt_zero _)) holdsBits_clear

/-! ### `DEMOD`, from its scan (R96) -/

/-- R96: the outcome is the way the demodulation ended. -/
theorem execDemod_outcome (hw : s.writeIndex = s.rawCapacity) (h : execDemod fs s = .next t) :
    ∃ x, demodScan fs s = .ok x ∧ t.outcome = some (demodOutcome x) := by
  rcases execDemod_cases h with ⟨hne, -⟩ | ⟨-, ⟨bits, hscan, rfl⟩ | ⟨hscan, rfl⟩⟩
  · exact absurd hw hne
  all_goals exact ⟨_, hscan, rfl⟩

end

/-! ### The statements -/

/-- Settles O24: the demodulation of a complete window produces one number of bits, and 35 decides how `DEMOD` ends. -/
theorem demodProducesFrame : Obligations.DemodProducesFrame := by
  intro s fs hs
  obtain ⟨n, v, hn, hv, hscan⟩ := demodScan_produces hs.written fs
  refine ⟨n, hn, fun m hm => hm.unique hn, fun h35 => ⟨v, hv, ?_⟩, fun h35 => ?_⟩
  · rw [if_pos h35] at hscan
    exact execDemod_of_scan _ hs.2 hscan
  · rw [if_neg h35.not_ge] at hscan
    exact execDemod_of_scan _ hs.2 hscan

/-- Settles O25: the disallowed pair makes `n` the number of bits produced. -/
theorem disallowedPairEndsFrame : Obligations.DisallowedPairEndsFrame := by
  intro s fs n a b hs hn hdecode hlt ha hb hzero hone
  obtain ⟨m, -, hunique, hsuccess, hfailure⟩ := demodProducesFrame s fs hs
  have hend : pairAt s fs n = none := (pairAt_of_cells hlt ha hb).trans (pairBit_disallowed hzero hone)
  obtain rfl : n = m := hunique n ⟨hn.le, hdecode, .inr hend⟩
  by_cases h35 : 35 ≤ n
  · obtain ⟨v, hv, hexec⟩ := hsuccess h35
    exact ⟨_, hexec, fun _ => ⟨hv, rfl⟩, fun h => absurd h35 h.not_ge⟩
  · exact ⟨_, hfailure (not_le.1 h35), fun h => absurd h h35, fun _ => rfl⟩

/-- Settles O26: windows that agree on the cells of the pairs are demodulated alike, and the demodulation decides the outcome. -/
theorem demodReadsOnlyItsPairs : Obligations.DemodReadsOnlyItsPairs := by
  intro s t s' t' fs hs ht hcap hcells hexec hexec'
  have hscan : demodScan fs s = demodScan fs t := demodScan_congr fs hcap hcells
  obtain ⟨x, hx, ho⟩ := execDemod_outcome hs hexec
  obtain ⟨x', hx', ho'⟩ := execDemod_outcome ht hexec'
  rw [hscan, hx'] at hx
  cases hx
  rw [ho, ho']

end Sys2Proof.Machine
end

section
/-! PROOF. The statements of 43_acquisition.md: the gate of `ACQ` (R100), its stages (R101, R103) and the end of the window
(R102); and the host's read procedure (R104, R155), which completes on every schedule and without edges finds nothing. -/

namespace Sys2Proof.Machine

section
variable {s t u : State} {codec : Bits64 → Option CardRecord}

/-! ### The gate and the end of the window (R100, R102) -/

theorem acquire_filling (codec : Bits64 → Option CardRecord) (h : s.writeIndex < s.rawCapacity) :
    acquire codec s = .next (s.handBack .filling) :=
  if_pos h.ne

/-- R102: past the gate the index is cleared, and one of five outcomes handed back. -/
theorem acquire_ready_cases (hw : s.writeIndex = s.rawCapacity) (h : acquire codec s = .next t) :
    t.writeIndex = 0 ∧
    (t.outcome = some .invalidTiming ∨ t.outcome = some .noPreamble ∨ t.outcome = some .manchesterError ∨
     t.outcome = some .formatReject ∨ ∃ r, t.outcome = some (.success r)) := by
  rcases acquire_cases h with
    ⟨hne, -⟩ | ⟨-, ⟨-, rfl⟩ | ⟨-, rfl⟩ | ⟨off, -, ⟨-, rfl⟩ | ⟨bits, -, rfl⟩⟩⟩
  · exact absurd hw hne
  · exact ⟨rfl, .inl rfl⟩
  · exact ⟨rfl, .inr (.inl rfl)⟩
  · exact ⟨rfl, .inr (.inr (.inl rfl))⟩
  · rcases codecOutcome_cases (codec bits) with ⟨r, hr⟩ | hr
    · exact ⟨rfl, .inr (.inr (.inr (.inr ⟨r, congrArg some hr⟩)))⟩
    · exact ⟨rfl, .inr (.inr (.inr (.inl (congrArg some hr))))⟩

/-! ### The stages of `ACQ` as the operations `LOCATE` and `DEMOD` (R101, R103) -/

/-- R84: the state of a `LOCATE` that found a run. -/
theorem execLocate_found_eq {ss off : Nat} (h : execLocate ss s = .next t) (ho : t.outcome = some (.found off))
    (hw : s.writeIndex = s.rawCapacity) : t = State.handBack { s with frameStart := off } (.found off) := by
  have hexec := execLocate_of_scan _ hw (execLocate_found h ho).1
  rw [h] at hexec
  cases hexec
  rfl

/-- R101: a failure of `LOCATE 0` is that of `ACQ`. -/
theorem acquire_of_execLocate_failure (codec : Bits64 → Option CardRecord) (hw : s.writeIndex = s.rawCapacity)
    (h : execLocate 0 s = .next t) (ho : t.outcome = some .invalidTiming ∨ t.outcome = some .noPreamble) :
    acquire codec s = .next { t with writeIndex := 0 } := by
  obtain ⟨hinvalid, hnone⟩ := acquire_of_locateFailure codec hw
  rcases execLocate_cases h with ⟨hne, -⟩ | ⟨-, ⟨off, -, rfl⟩ | ⟨hscan, rfl⟩ | ⟨hscan, rfl⟩⟩
  · exact absurd hw hne
  · simp at ho
  · exact hnone hscan
  · exact hinvalid hscan

/-- R101: where `LOCATE 0` finds a run, `ACQ` ends as `DEMOD` of the register does on the state `LOCATE` left, except that bits
demodulated are handed to the codec. -/
theorem acquire_of_execDemod {off : Nat} (codec : Bits64 → Option CardRecord) (hw : s.writeIndex = s.rawCapacity)
    (hloc : execLocate 0 s = .next t) (hfound : t.outcome = some (.found off))
    (hdem : execDemod t.frameStart t = .next u) :
    (u.outcome = some .manchesterError → acquire codec s = .next { u with writeIndex := 0 }) ∧
    (∀ v, u.outcome = some (.demodulated v) →
      acquire codec s = .next { u with writeIndex := 0, outcome := some (codecOutcome (codec v)) }) := by
  have hscan : locateScan 0 s = .ok (.found off) := (execLocate_found hloc hfound).1
  obtain rfl := execLocate_found_eq hloc hfound hw
  have hsame : demodScan off { s with frameStart := off } =
      demodScan off (State.handBack { s with frameStart := off } (.found off)) :=
    demodScan_congr off rfl fun _ _ _ => rfl
  rcases execDemod_cases hdem with ⟨hne, -⟩ | ⟨-, ⟨bits, hbits, rfl⟩ | ⟨hbits, rfl⟩⟩
  · exact absurd hw hne
  · refine ⟨nofun, fun v hv => ?_⟩
    cases hv
    exact acquire_of_found codec _ hw hscan (hsame.trans hbits)
  · exact ⟨fun _ => acquire_of_found codec _ hw hscan (hsame.trans hbits), nofun⟩

/-! ### Every operation completes in a state that meets the invariant (R133) -/

/-- R71: the index is below the capacity or at it. -/
theorem appendSymbol_completes (sym : Symbol) (hinv : s.Inv) : ∃ t, appendSymbol sym s = .next t := by
  rcases hinv.index_le.lt_or_eq with hfill | hready
  · exact ⟨_, appendSymbol_filling sym hfill⟩
  · exact ⟨_, appendSymbol_ready sym hready⟩

theorem execEdge_completes (e : Nat) (hinv : s.Inv) : ∃ t, execEdge e s = .next t := by
  cases hclass : classify e with
  | none => exact ⟨_, execEdge_of_classify_none hclass⟩
  | some sym =>
    rw [execEdge_of_classify_some hclass]
    exact appendSymbol_completes sym hinv

theorem execLocate_completes (ss : Nat) (hinv : s.Inv) : ∃ t, execLocate ss s = .next t := by
  rcases hinv.index_le.lt_or_eq with hfill | hready
  · exact ⟨_, execLocate_filling ss hfill⟩
  · obtain ⟨x, hscan⟩ := locateScan_ok (State.WindowReady.written ⟨hinv, hready⟩) ss
    rw [execLocate_of_scan x hready hscan]
    cases x <;> exact ⟨_, rfl⟩

theorem execDemod_completes (fs : Nat) (hinv : s.Inv) : ∃ t, execDemod fs s = .next t := by
  rcases hinv.index_le.lt_or_eq with hfill | hready
  · exact ⟨_, execDemod_filling fs hfill⟩
  · obtain ⟨x, hscan⟩ := demodScan_ok (State.WindowReady.written ⟨hinv, hready⟩) fs
    rw [execDemod_of_scan x hready hscan]
    cases x <;> exact ⟨_, rfl⟩

/-- R101: the two scans of a complete window fault nowhere, and each way they can end leads to an outcome. -/
theorem acquire_completes (codec : Bits64 → Option CardRecord) (hinv : s.Inv) : ∃ t, acquire codec s = .next t := by
  rcases hinv.index_le.lt_or_eq with hfill | hready
  · exact ⟨_, acquire_filling codec hfill⟩
  · have hwritten := State.WindowReady.written ⟨hinv, hready⟩
    obtain ⟨x, hscan⟩ := locateScan_ok hwritten 0
    cases x with
    | invalidTiming => exact ⟨_, (acquire_of_locateFailure codec hready).1 hscan⟩
    | noPreamble => exact ⟨_, (acquire_of_locateFailure codec hready).2 hscan⟩
    | found off =>
      obtain ⟨y, hbits⟩ := demodScan_ok (s := { s with frameStart := off }) hwritten off
      rw [acquire_of_found codec y hready hscan hbits]
      cases y <;> exact ⟨_, rfl⟩

theorem exec_completes (i : Instr) (hinv : s.Inv) : ∃ t, exec i s = .next t := by
  cases i with
  | rst => exact ⟨_, exec_rst⟩
  | append sym => exact appendSymbol_completes sym hinv
  | edge e => exact execEdge_completes e hinv
  | locate ss => exact execLocate_completes ss hinv
  | demod fs => exact execDemod_completes fs hinv
  | acq => exact acquire_completes _ hinv

end

/-! ### The stretches of a read (R104) -/

/-- From every state that meets the invariant, `f` goes on to a state that meets it, with the same capacity. -/
def Completes (f : State → Host.Outcome State Fault Refusal) : Prop :=
  ∀ s : State, s.Inv → ∃ t, f s = .next t ∧ t.Inv ∧ t.rawCapacity = s.rawCapacity

theorem completes_exec (i : Instr) : Completes (exec i) := by
  intro s hinv
  obtain ⟨t, h⟩ := exec_completes i hinv
  exact ⟨t, h, exec_inv hinv h, (exec_index_cases h).1⟩

theorem Completes.andThen {f g : State → Host.Outcome State Fault Refusal} (hf : Completes f) (hg : Completes g) :
    Completes fun s => andThen (f s) g := by
  intro s hinv
  obtain ⟨t, hft, htinv, htcap⟩ := hf s hinv
  obtain ⟨u, hgu, huinv, hucap⟩ := hg t htinv
  exact ⟨u, by simp only [hft, Machine.andThen, hgu], huinv, hucap.trans htcap⟩

theorem completes_performEdges (es : List Nat) : Completes (performEdges es) := by
  induction es with
  | nil => exact fun s hinv => ⟨s, rfl, hinv, rfl⟩
  | cons e es ih => exact (completes_exec (.edge e)).andThen ih

theorem completes_pollOnce (edges : List Nat) : Completes (pollOnce edges) :=
  (completes_performEdges edges).andThen (completes_exec .acq)

/-- By induction on the polls that are still to come. -/
theorem completes_pollLoop (later : List (List Nat)) (edges : List Nat) : Completes (pollLoop later edges) := by
  induction later generalizing edges with
  | nil => exact completes_pollOnce edges
  | cons es later ih =>
    refine (completes_pollOnce edges).andThen fun t hinv => ?_
    cases publishedRecord t.outcome with
    | some r => exact ⟨t, rfl, hinv, rfl⟩
    | none => exact ih es t hinv

/-! ### Polls of an empty window -/

section
variable {s t : State}

/-- A record is published by a success alone (R104). -/
theorem publishedRecord_eq_some {o : Option OpOutcome} {r : CardRecord} :
    publishedRecord o = some r ↔ o = some (.success r) := by
  unfold publishedRecord
  split
  · simp
  · next hne => exact iff_of_false nofun (hne r)

/-- R4, R100: an `ACQ` at index 0 publishes nothing: a success needs a capacity of 110, and there the window is incomplete. -/
theorem acquire_empty_publishes_none {codec : Bits64 → Option CardRecord} (hzero : s.writeIndex = 0)
    (h : acquire codec s = .next t) : publishedRecord t.outcome = none := by
  refine Option.eq_none_iff_forall_ne_some.2 fun r hr => ?_
  have ho : t.outcome = some (.success r) := publishedRecord_eq_some.1 hr
  have hroom : 110 ≤ s.rawCapacity := (successNeedsRoomAndCodec.2 codec s t r h ho).1
  rw [acquire_filling codec (by omega)] at h
  cases h
  cases ho

/-- R100, R102: a poll without edges leaves an empty window empty and publishes nothing. -/
theorem pollOnce_noEdges (hinv : s.Inv) (hzero : s.writeIndex = 0) :
    ∃ t, pollOnce [] s = .next t ∧ t.Inv ∧ t.writeIndex = 0 ∧ publishedRecord t.outcome = none := by
  obtain ⟨t, h⟩ := acquire_completes Config.codecDecode hinv
  have hempty : t.writeIndex = 0 := (acquire_index h).2.elim (fun hkept => hkept.trans hzero) id
  exact ⟨t, h, acquire_inv hinv h, hempty, acquire_empty_publishes_none hzero h⟩

/-- S3: so does any number of polls. By induction on those that are still to come. -/
theorem pollLoop_noEdges_publishes_none (n : Nat) (hinv : s.Inv) (hzero : s.writeIndex = 0) :
    ∃ t, pollLoop (List.replicate n []) [] s = .next t ∧ publishedRecord t.outcome = none := by
  induction n generalizing s with
  | zero =>
    obtain ⟨t, hpoll, -, -, hnone⟩ := pollOnce_noEdges hinv hzero
    exact ⟨t, hpoll, hnone⟩
  | succ n ih =>
    obtain ⟨t, hpoll, htinv, htzero, hnone⟩ := pollOnce_noEdges hinv hzero
    obtain ⟨u, hrest, hunone⟩ := ih htinv htzero
    exact ⟨u, by simp only [List.replicate_succ, pollLoop, hpoll, andThen, hnone, hrest], hunone⟩

end

/-! ### The statements -/

/-- Settles O29: each stage's operation has one way to end for each way its scan ends, and the scan decides `ACQ`. -/
theorem acqChainsTheStages : Obligations.AcqChainsTheStages := by
  refine ⟨fun _ => rfl, fun codec s t hs hloc => ?_⟩
  refine ⟨acquire_of_execLocate_failure codec hs.2 hloc, fun off u hfound hdem => ?_⟩
  obtain ⟨herror, hbits⟩ := acquire_of_execDemod codec hs.2 hloc hfound hdem
  refine ⟨herror, fun v hv => ⟨fun hc => ?_, fun r hc => ?_⟩⟩
  all_goals
    have hacq := hbits v hv
    rwa [hc] at hacq

/-- Settles O30: `ACQ` completes under the invariant, and its paths past the gate are the five. -/
theorem acqEndsTheWindow : Obligations.AcqEndsTheWindow := by
  intro s hs
  obtain ⟨t, h⟩ := acquire_completes Config.codecDecode hs.1
  obtain ⟨hzero, houtcome⟩ := acquire_ready_cases hs.2 h
  exact ⟨t, h, hzero, acquire_timeline h, houtcome⟩

/-- Settles O42: each stretch of the read completes, and the last is a capture reset. -/
theorem readCardTearsDown : Obligations.ReadCardTearsDown := by
  intro p s hinv
  obtain ⟨s1, h1, hinv1, hcap1⟩ := completes_performEdges p.beforeReset s hinv
  obtain ⟨s2, h2, hinv2, hcap2⟩ := completes_exec .rst s1 hinv1
  obtain ⟨s3, h3, hinv3, hcap3⟩ := completes_pollLoop p.laterPolls p.firstPoll s2 hinv2
  obtain ⟨s4, h4, -, hcap4⟩ := completes_performEdges p.afterLoop s3 hinv3
  exact ⟨_, readCard_of_stages h1 h2 h3 h4 exec_rst, rfl, rfl,
    hcap4.trans (hcap3.trans (hcap2.trans hcap1))⟩

/-- Settles O43: after the first `RST` the window is empty, and no poll publishes a record. -/
theorem readWithoutEdges : Obligations.ReadWithoutEdges := by
  intro n s hinv
  obtain ⟨t, hloop, hnone⟩ := pollLoop_noEdges_publishes_none n (hinv.captureReset.handBack .done) rfl
  exact ⟨_, readCard_of_stages rfl exec_rst hloop rfl exec_rst, hnone, by simp only [ReadResult.hostOutcome, hnone]⟩

/-- Settles O18: the word is one of the opcode map, and the gate hands back `Filling`. -/
theorem acqWhileFilling : Obligations.AcqWhileFilling :=
  ⟨(decode_op_acq 0).trans (decodeNoOperand_eq_ok.2 ⟨rfl, rfl⟩), fun _ h => acquire_filling _ h⟩

/-- Settles O31: the first `ACQ` cleared the index, which is now below the capacity. -/
theorem secondAcqFindsFilling : Obligations.SecondAcqFindsFilling := by
  intro s t hpos hready h
  have hzero : t.writeIndex = 0 := (acquire_ready_cases hready h).1
  have hcap : t.rawCapacity = s.rawCapacity := (acquire_index h).1
  exact acquire_filling _ (by omega)

end Sys2Proof.Machine
end

section
/-! PROOF. The statements of 45_context_hid35_codec.md: what the decoder of R118 reads of a frame (R112, R121), and what it makes
of a frame of the encoder (R119, R120). -/

namespace Sys2Proof.Machine

/-! ### Positions, parities and fields (R7, R33) -/

/-- R33: the bits of a field from its first on are the word's bits at the field's positions. -/
theorem getMsbD_extractLsb'_of_lt {w n : Nat} (x : BitVec w) {start k : Nat} (hk : k < n) (hin : start + n ≤ w) :
    (x.extractLsb' start n).getMsbD k = x.getMsbD (w - (start + n) + k) := by
  have hpos : w - (start + n - k) = w - (start + n) + k := by omega
  rw [BitVec.getMsbD_extractLsb', decide_eq_true hk, decide_eq_true (by omega : start + n - k ≤ w), hpos, Bool.true_and,
    Bool.true_and]

section
variable {v w : Bits64} {a n : Nat}

/-- R7: the positions of a stretch decide its parity. -/
theorem parityAt_congr (h : ∀ k < n, bitAt v (a + k) = bitAt w (a + k)) : parityAt v a n = parityAt w a n := by
  have hcount : popcountAt v a n = popcountAt w a n :=
    List.countP_congr fun k hk => by rw [h k (List.mem_range.1 hk)]
  rw [parityAt, parityAt, hcount]

/-- R7: the parity of no positions. -/
@[simp] theorem parityAt_zero (v : Bits64) (a : Nat) : parityAt v a 0 = false := rfl

/-- R7: the parity of a stretch, its first position split off. -/
theorem parityAt_succ (v : Bits64) (a n : Nat) : parityAt v a (n + 1) = (bitAt v a ^^ parityAt v (a + 1) n) := by
  have hshift : (fun k => bitAt v (a + k)) ∘ Nat.succ = fun k => bitAt v (a + 1 + k) := by
    funext k
    exact congrArg (bitAt v) (by omega)
  have hcount : popcountAt v a (n + 1) = popcountAt v (a + 1) n + (bitAt v a).toNat := by
    rw [popcountAt, List.range_succ_eq_map, List.countP_cons, List.countP_map, hshift]
    cases bitAt v a <;> rfl
  rw [parityAt, parityAt, hcount]
  rcases Nat.mod_two_eq_zero_or_one (popcountAt v (a + 1) n) with h | h <;> cases bitAt v a <;> simp [Nat.add_mod, h]

/-- R7: the parity of a stretch is that of the field standing there. Positions count from the most significant bit and the bits of
a field from the least, so the one count is the other in reverse. -/
theorem parityAt_eq_fieldParity {x : BitVec n} (h : ∀ k < n, bitAt v (a + k) = x.getMsbD k) :
    parityAt v a n = fieldParity x := by
  have hcount : popcountAt v a n = (List.range n).countP (fun k => x.getLsbD k) :=
    calc popcountAt v a n
      _ = (List.range n).countP (fun k => x.getLsbD (0 + n - 1 - k)) :=
          List.countP_congr fun k hk => by
            have hlt : k < n := List.mem_range.1 hk
            rw [h k hlt, BitVec.getMsbD_eq_getLsbD, decide_eq_true hlt, Bool.true_and, Nat.zero_add]
      _ = ((List.range n).map (0 + n - 1 - ·)).countP (fun k => x.getLsbD k) := List.countP_map.symm
      _ = (List.range n).countP (fun k => x.getLsbD k) := by
          rw [← List.reverse_range', List.countP_reverse, ← List.range_eq_range']
  rw [parityAt, hcount, fieldParity]

end

/-! ### What the decoder reads (R112 to R118) -/

section
variable {v w : Bits64}

/-- R118: the bits of the facility code. -/
theorem frameFacility_getMsbD (v : Bits64) {k : Nat} (hk : k < 12) : (frameFacility v).getMsbD k = bitAt v (3 + k) :=
  getMsbD_extractLsb'_of_lt v hk (by decide)

/-- R118: the bits of the card number. -/
theorem frameCard_getMsbD (v : Bits64) {k : Nat} (hk : k < 16) : (frameCard v).getMsbD k = bitAt v (15 + k) :=
  getMsbD_extractLsb'_of_lt v hk (by decide)

/-- R115: check A compares bit 2 with the parity of the facility code. -/
theorem parityAOk_eq (v : Bits64) : parityAOk v = (bitAt v 2 == fieldParity (frameFacility v)) := by
  rw [parityAOk, parityAt_eq_fieldParity fun _ hk => (frameFacility_getMsbD v hk).symm]

/-- R116: bit 15 stands on both sides of the check, which asks for an odd count of the positions 16 to 26. -/
theorem parityOddOk_eq (v : Bits64) : parityOddOk v = parityAt v 16 11 := by
  rw [parityOddOk, parityAt_succ v 15 11]
  cases bitAt v 15 <;> simp

/-- R117: bit 31 stands on both sides of the check, which with the trailer in place asks for bit 32 to be 1. -/
theorem parityBOk_of_trailerOk (h : trailerOk v = true) : parityBOk v = bitAt v 32 := by
  obtain ⟨h33, h34⟩ : bitAt v 33 = false ∧ bitAt v 34 = true := by simpa [trailerOk] using h
  cases h31 : bitAt v 31 <;> simp [parityBOk, parityAt_succ, h31, h33, h34]

/-- R113 to R118: a frame is decoded when it passes the five checks, to the record of its two fields. -/
theorem hid35Decode_eq_some {r : CardRecord} :
    hid35Decode v = some r ↔
      (headerOk v ∧ trailerOk v ∧ parityAOk v ∧ parityOddOk v ∧ parityBOk v) ∧
        packRecord (frameFacility v) (frameCard v) = r := by
  simp [hid35Decode, and_assoc]

/-- R114: a frame with a wrong header or a wrong trailer is rejected. -/
theorem hid35Decode_eq_none (h : headerOk v = false ∨ trailerOk v = false) : hid35Decode v = none := by
  refine Option.eq_none_iff_forall_ne_some.2 fun r hr => ?_
  obtain ⟨⟨hheader, htrailer, -⟩, -⟩ := hid35Decode_eq_some.1 hr
  rcases h with h | h
  · exact Bool.noConfusion (h.symm.trans hheader)
  · exact Bool.noConfusion (h.symm.trans htrailer)

/-- R112: frames that agree on the positions 0 to 34 pass the same checks and hold the same fields. -/
theorem hid35Decode_congr (h : ∀ k < 35, bitAt v k = bitAt w k) : hid35Decode v = hid35Decode w := by
  have hparity (a n : Nat) (hin : a + n ≤ 35) : parityAt v a n = parityAt w a n :=
    parityAt_congr fun k hk => h _ (by omega)
  have hheader : headerOk v = headerOk w := by rw [headerOk, headerOk, h 0 (by decide), h 1 (by decide)]
  have htrailer : trailerOk v = trailerOk w := by rw [trailerOk, trailerOk, h 33 (by decide), h 34 (by decide)]
  have hA : parityAOk v = parityAOk w := by rw [parityAOk, parityAOk, h 2 (by decide), hparity 3 12 (by decide)]
  have hOdd : parityOddOk v = parityOddOk w := by
    rw [parityOddOk, parityOddOk, h 15 (by decide), hparity 15 12 (by decide)]
  have hB : parityBOk v = parityBOk w := by rw [parityBOk, parityBOk, h 31 (by decide), hparity 31 4 (by decide)]
  have hfacility : frameFacility v = frameFacility w := BitVec.eq_of_getMsbD_eq fun k hk => by
    rw [frameFacility_getMsbD v hk, frameFacility_getMsbD w hk, h _ (by omega)]
  have hcard : frameCard v = frameCard w := BitVec.eq_of_getMsbD_eq fun k hk => by
    rw [frameCard_getMsbD v hk, frameCard_getMsbD w hk, h _ (by omega)]
  rw [hid35Decode, hid35Decode, hheader, htrailer, hA, hOdd, hB, hfacility, hcard]

end

/-! ### The record and the frame (R111, R119) -/

section
variable (fc : BitVec 12) (cn : BitVec 16)

/-- R111: byte 1 holds the facility code's low nibble above the card number's high nibble. -/
theorem packRecord_byte1_nibbles :
    (packRecord fc cn).byte1.extractLsb' 4 4 = fc.extractLsb' 0 4 ∧
      (packRecord fc cn).byte1.extractLsb' 0 4 = cn.extractLsb' 12 4 :=
  ⟨BitVec.extractLsb'_append_eq_left, BitVec.extractLsb'_append_eq_right⟩

/-- R111: byte 3 holds the card number's low nibble above an unused nibble, which is 0. -/
theorem packRecord_byte3_nibbles :
    (packRecord fc cn).byte3.extractLsb' 4 4 = cn.extractLsb' 0 4 ∧ (packRecord fc cn).byte3.extractLsb' 0 4 = 0 :=
  ⟨BitVec.extractLsb'_append_eq_left, BitVec.extractLsb'_append_eq_right⟩

/-- R111: the facility code of a packed record. -/
@[simp] theorem recordFacility_packRecord : recordFacility (packRecord fc cn) = fc := by
  rw [recordFacility, (packRecord_byte1_nibbles fc cn).1]
  exact (BitVec.extractLsb'_append_extractLsb'_eq_extractLsb' rfl).trans BitVec.extractLsb'_eq_self

/-- R111: the card number of a packed record. -/
@[simp] theorem recordCard_packRecord : recordCard (packRecord fc cn) = cn := by
  have hhigh : cn.extractLsb' 12 4 ++ cn.extractLsb' 4 8 = cn.extractLsb' 4 12 :=
    BitVec.extractLsb'_append_extractLsb'_eq_extractLsb' rfl
  rw [recordCard, (packRecord_byte1_nibbles fc cn).2, (packRecord_byte3_nibbles fc cn).1, packRecord, hhigh]
  exact (BitVec.extractLsb'_append_extractLsb'_eq_extractLsb' rfl).trans BitVec.extractLsb'_eq_self

/-- R111: a packed record has one card number. -/
theorem card_eq_of_packRecord_eq {fc fc' : BitVec 12} {cn cn' : BitVec 16} (h : packRecord fc cn = packRecord fc' cn') :
    cn = cn' := by
  rw [← recordCard_packRecord fc cn, h, recordCard_packRecord]

/-- R119: the frame of a packed record, whose reserved parts are 0. -/
@[simp] theorem hid35Encode_packRecord : hid35Encode (packRecord fc cn) = encodeFrame fc cn := by
  rw [hid35Encode, if_pos ⟨rfl, (packRecord_byte3_nibbles fc cn).2⟩, recordFacility_packRecord, recordCard_packRecord]

/-- R119: the bits of a frame, field by field from its end. -/
theorem bitAt_encodeFrame (k : Nat) :
    bitAt (encodeFrame fc cn) k =
      if 35 ≤ k then false
      else if 33 ≤ k then (0b01 : BitVec 2).getMsbD (k - 33)
      else if 32 ≤ k then decide (k - 32 = 0) && fieldParity (cn.extractLsb' 0 3)
      else if 16 ≤ k then cn.getMsbD (k - 16)
      else if 15 ≤ k then decide (k - 15 = 0) && !fieldParity (cn.extractLsb' 4 12)
      else if 3 ≤ k then fc.getMsbD (k - 3)
      else if 2 ≤ k then decide (k - 2 = 0) && fieldParity fc
      else (0b10 : BitVec 2).getMsbD k := by
  show ((0b10 : BitVec 2) ++ BitVec.ofBool (fieldParity fc) ++ fc ++ BitVec.ofBool (!fieldParity (cn.extractLsb' 4 12)) ++ cn
    ++ BitVec.ofBool (fieldParity (cn.extractLsb' 0 3)) ++ (0b01 : BitVec 2) ++ (0 : BitVec 29) :
    BitVec (2 + 1 + 12 + 1 + 16 + 1 + 2 + 29)).getMsbD k = _
  simp only [BitVec.getMsbD_append, BitVec.getMsbD_ofBool]
  simp only [Nat.reduceAdd, BitVec.ofNat_eq_ofNat, BitVec.getMsbD_zero]

/-- R119: the facility code stands at the positions 3 to 14. -/
theorem bitAt_encodeFrame_facility {k : Nat} (hk : k < 12) : bitAt (encodeFrame fc cn) (3 + k) = fc.getMsbD k := by
  simp [bitAt_encodeFrame, show ¬ 35 ≤ 3 + k by omega, show ¬ 33 ≤ 3 + k by omega, show ¬ 32 ≤ 3 + k by omega,
    show ¬ 16 ≤ 3 + k by omega, show ¬ 15 ≤ 3 + k by omega]

/-- R119: the card number stands at the positions 16 to 31. -/
theorem bitAt_encodeFrame_card {k : Nat} (hk : k < 16) : bitAt (encodeFrame fc cn) (16 + k) = cn.getMsbD k := by
  simp [bitAt_encodeFrame, show ¬ 35 ≤ 16 + k by omega, show ¬ 33 ≤ 16 + k by omega, show ¬ 32 ≤ 16 + k by omega]

/-! ### What the decoder makes of a frame of the encoder (R120) -/

/-- R120: the facility code stands where the decoder reads it. -/
@[simp] theorem frameFacility_encodeFrame : frameFacility (encodeFrame fc cn) = fc :=
  BitVec.eq_of_getMsbD_eq fun k hk => by rw [frameFacility_getMsbD _ hk, bitAt_encodeFrame_facility _ _ hk]

/-- The card number the decoder reads of the encoder's frame (R120): the parity bit 15 first, and the last bit dropped. -/
def misreadCard (cn : BitVec 16) : BitVec 16 := BitVec.ofBool (!fieldParity (cn.extractLsb' 4 12)) ++ cn.extractLsb' 1 15

/-- R120: the first bit misread is the parity bit. -/
theorem misreadCard_getMsbD_zero : (misreadCard cn).getMsbD 0 = !fieldParity (cn.extractLsb' 4 12) := by
  show (BitVec.ofBool _ ++ cn.extractLsb' 1 15 : BitVec (1 + 15)).getMsbD 0 = _
  rw [BitVec.getMsbD_append]
  simp

/-- R120: the later bits misread are the card number's, one position late. -/
theorem misreadCard_getMsbD_succ {k : Nat} (hk : k < 15) : (misreadCard cn).getMsbD (k + 1) = cn.getMsbD k := by
  show (BitVec.ofBool _ ++ cn.extractLsb' 1 15 : BitVec (1 + 15)).getMsbD (k + 1) = _
  rw [BitVec.getMsbD_append, if_pos (by omega), Nat.add_sub_cancel, getMsbD_extractLsb'_of_lt cn hk (by decide),
    Nat.sub_self, Nat.zero_add]

/-- R120: what the decoder reads as the card number starts one position early. -/
theorem frameCard_encodeFrame : frameCard (encodeFrame fc cn) = misreadCard cn := by
  refine BitVec.eq_of_getMsbD_eq fun k hk => ?_
  rw [frameCard_getMsbD _ hk]
  cases k with
  | zero => simp [bitAt_encodeFrame, misreadCard_getMsbD_zero]
  | succ k =>
    rw [misreadCard_getMsbD_succ _ (by omega), ← bitAt_encodeFrame_card fc cn (by omega)]
    congr 1
    omega

/-- R116, R119: in a frame of the encoder the odd check is one of the card number's upper 11 bits. -/
theorem parityOddOk_encodeFrame : parityOddOk (encodeFrame fc cn) = fieldParity (cn.extractLsb' 5 11) := by
  refine (parityOddOk_eq _).trans (parityAt_eq_fieldParity fun k hk => ?_)
  rw [bitAt_encodeFrame_card fc cn (by omega), getMsbD_extractLsb'_of_lt cn hk (by decide), Nat.sub_self, Nat.zero_add]

/-- R119, R120: of the decoder's checks a frame of the encoder passes header, trailer and check A whatever the record; the other
two are parities of the card number, and what is then read of it is displaced. -/
theorem hid35Decode_encodeFrame_eq_some {r : CardRecord} :
    hid35Decode (encodeFrame fc cn) = some r ↔
      (fieldParity (cn.extractLsb' 5 11) ∧ fieldParity (cn.extractLsb' 0 3)) ∧ packRecord fc (misreadCard cn) = r := by
  have hheader : headerOk (encodeFrame fc cn) = true := by simp [headerOk, bitAt_encodeFrame]
  have htrailer : trailerOk (encodeFrame fc cn) = true := by simp [trailerOk, bitAt_encodeFrame]
  have hA : parityAOk (encodeFrame fc cn) = true := by simp [parityAOk_eq, bitAt_encodeFrame]
  have hB : parityBOk (encodeFrame fc cn) = fieldParity (cn.extractLsb' 0 3) := by
    simp [parityBOk_of_trailerOk htrailer, bitAt_encodeFrame]
  simp only [hid35Decode_eq_some, hheader, htrailer, hA, hB, parityOddOk_encodeFrame, frameFacility_encodeFrame,
    frameCard_encodeFrame, true_and]

end

/-- R120: a card number that is read back repeats its first bit sixteen times. -/
theorem getMsbD_of_misreadCard_eq {cn : BitVec 16} (h : misreadCard cn = cn) {k : Nat} (hk : k < 16) :
    cn.getMsbD k = cn.getMsbD 0 := by
  induction k with
  | zero => rfl
  | succ k ih =>
    calc cn.getMsbD (k + 1)
      _ = (misreadCard cn).getMsbD (k + 1) := by rw [h]
      _ = cn.getMsbD k := misreadCard_getMsbD_succ cn (by omega)
      _ = cn.getMsbD 0 := ih (by omega)

/-- R120: the card number that is read back is 65535. The other number of one repeated bit is 0, whose parity bit is 1. -/
theorem misreadCard_eq_self {cn : BitVec 16} : misreadCard cn = cn ↔ cn = 65535 := by
  refine ⟨fun h => ?_, fun h => by subst h; decide⟩
  have hrepeat (b : Bool) (x : BitVec 16) (hb : cn.getMsbD 0 = b) (hx : ∀ k < 16, x.getMsbD k = b) : cn = x :=
    BitVec.eq_of_getMsbD_eq fun k hk => (getMsbD_of_misreadCard_eq h hk).trans (hb.trans (hx k hk).symm)
  cases hb : cn.getMsbD 0 with
  | true => exact hrepeat true 65535 hb (by decide)
  | false =>
    have hzero : cn = 0 := hrepeat false 0 hb (by decide)
    subst hzero
    exact absurd h (by decide)

/-! ### The statements -/

/-- Settles O45: the header and the trailer are checks of the decoder, and all it reads stands at the positions 0 to 34. -/
theorem codecReadsTheFrame : Obligations.CodecReadsTheFrame := by
  refine ⟨fun v h => hid35Decode_eq_none ?_, fun v w h => hid35Decode_congr h⟩
  simpa [headerOk, trailerOk] using h

/-- Settles O46: the record comes back only with the card number that the displaced reading keeps, and that one passes the two
parities of the card number. -/
theorem codecRoundTripOnlyAllOnes : Obligations.CodecRoundTripOnlyAllOnes := by
  intro fc cn
  rw [hid35Encode_packRecord, hid35Decode_encodeFrame_eq_some]
  constructor
  · rintro ⟨-, hrecord⟩
    exact misreadCard_eq_self.1 (card_eq_of_packRecord_eq hrecord)
  · intro hcn
    rw [misreadCard_eq_self.2 hcn, hcn]
    exact ⟨by decide, rfl⟩

end Sys2Proof.Machine
end

section
/-! PROOF. The statements of 60_exceptions.md: what the operations of each agent leave unchanged (R141), and that no step and no
run stops in a state that meets the invariant (R133). -/

namespace Sys2Proof.Machine

section
variable {s t : State}

/-! ### The edge agent (R71, R72, R141) -/

/-- An operation of the edge agent is an edge the classifier ignored, or the append of one symbol. -/
theorem exec_edgeAgent_ignored_or_append {i : Instr} (hi : i.issuer = .edgeAgent) (h : exec i s = .next t) :
    t = s.handBack .ignored ∨ ∃ sym, appendSymbol sym s = .next t := by
  cases i with
  | append sym => exact .inr ⟨sym, h⟩
  | edge e =>
    rcases execEdge_cases h with ⟨-, hignored⟩ | ⟨sym, -, happ⟩
    · exact .inl hignored
    · exact .inr ⟨sym, happ⟩
  | rst | locate _ | demod _ | acq => cases hi

/-! ### The host agent (R84, R97, R102, R141) -/

/-- R84: `LOCATE` changes neither the input nor `decodedBits`. -/
theorem execLocate_input_decodedBits {ss : Nat} (h : execLocate ss s = .next t) :
    t.input = s.input ∧ t.decodedBits = s.decodedBits := by
  rcases execLocate_cases h with ⟨-, rfl⟩ | ⟨-, ⟨off, -, rfl⟩ | ⟨-, rfl⟩ | ⟨-, rfl⟩⟩ <;> exact ⟨rfl, rfl⟩

/-- R90, R97: `DEMOD` changes neither the input nor `frameStart`. -/
theorem execDemod_input_frameStart {fs : Nat} (h : execDemod fs s = .next t) :
    t.input = s.input ∧ t.frameStart = s.frameStart := by
  rcases execDemod_cases h with ⟨-, rfl⟩ | ⟨-, ⟨bits, -, rfl⟩ | ⟨-, rfl⟩⟩ <;> exact ⟨rfl, rfl⟩

/-- R102: `ACQ` takes nothing from the input. -/
theorem acquire_input {codec : Bits64 → Option CardRecord} (h : acquire codec s = .next t) : t.input = s.input := by
  rcases acquire_cases h with
    ⟨-, rfl⟩ | ⟨-, ⟨-, rfl⟩ | ⟨-, rfl⟩ | ⟨off, -, ⟨-, rfl⟩ | ⟨bits, -, rfl⟩⟩⟩ <;> rfl

/-- R100: before its gate `ACQ` hands back `Filling` and does nothing else. -/
theorem acquire_of_index_ne {codec : Bits64 → Option CardRecord} (hne : s.writeIndex ≠ s.rawCapacity)
    (h : acquire codec s = .next t) : t = s.handBack .filling := by
  rcases acquire_cases h with ⟨-, ht⟩ | ⟨hready, -⟩
  · exact ht
  · exact absurd hready hne

end

/-! ### No step and no run stops (R133) -/

/-- R53, R133: a command word of either kind is performed to its end. -/
theorem completes_runWord (w : Word) : Completes (runWord w) := by
  intro s hinv
  cases hdec : decode w with
  | ok i =>
    rw [runWord_of_decode hdec]
    exact completes_exec i s hinv
  | error e =>
    rw [runWord_of_decode_error hdec]
    exact ⟨_, rfl, hinv.handBack _, rfl⟩

/-- R8: so is every step, idle or not. -/
theorem completes_step : Completes step := by
  intro s hinv
  cases hin : s.input with
  | nil => exact ⟨s, step_of_input_nil hin, hinv, rfl⟩
  | cons w rest =>
    rw [step_of_input_cons hin]
    exact completes_runWord w _ (hinv.setInput rest)

/-- A run whose first step goes on is the rest of the run from the state that step reached. -/
theorem core_run_succ {s t : State} (n : Nat) (h : step s = .next t) : core.run (n + 1) s = core.run n t := by
  have hcore : core.step s = .next t := h
  simp only [Host.Core.run, hcore]

/-- By induction on the number of steps. -/
theorem completes_core_run (n : Nat) : Completes (core.run n) := by
  induction n with
  | zero => exact fun s hinv => ⟨s, rfl, hinv, rfl⟩
  | succ n ih =>
    intro s hinv
    obtain ⟨t, hstep, htinv, htcap⟩ := completes_step s hinv
    obtain ⟨u, hrun, huinv, hucap⟩ := ih t htinv
    exact ⟨u, (core_run_succ n hstep).trans hrun, huinv, hucap.trans htcap⟩

/-! ### The statements -/

/-- Settles O33: an ignored edge and a dropped append hand back an outcome alone; a store writes the cell at the index and
advances it. -/
theorem edgeAgentFrame : Obligations.EdgeAgentFrame := by
  intro i s t hi h
  rcases exec_edgeAgent_ignored_or_append hi h with rfl | ⟨sym, happ⟩
  · exact ⟨rfl, rfl, rfl, rfl, rfl, fun _ _ => rfl, .inl ⟨rfl, rfl⟩⟩
  · rcases appendSymbol_cases happ with ⟨-, rfl⟩ | ⟨hfill, rfl⟩
    · exact ⟨rfl, rfl, rfl, rfl, rfl, fun _ _ => rfl, .inl ⟨rfl, rfl⟩⟩
    · exact ⟨rfl, rfl, rfl, rfl, rfl, fun _ hother => Memory.read_write_other _ _ hother.symm,
        .inr ⟨rfl, hfill, sym, rfl, Memory.read_write_same _ _ _⟩⟩

/-- Settles O34: the frame of each operation of the host agent. -/
theorem hostAgentFrame : Obligations.HostAgentFrame := by
  intro i s t hi h
  have hcap : t.rawCapacity = s.rawCapacity := (exec_index_cases h).1
  cases i with
  | rst =>
    rw [exec_rst] at h
    cases h
    exact ⟨rfl, rfl, rfl, fun _ => ⟨rfl, rfl, rfl⟩, nofun, nofun, nofun⟩
  | locate ss =>
    obtain ⟨hinput, hbits⟩ := execLocate_input_decodedBits h
    exact ⟨hcap, execLocate_timeline h, hinput, nofun, fun _ _ => ⟨(execLocate_index h).2, hbits⟩, nofun, nofun⟩
  | demod fs =>
    obtain ⟨hinput, hframe⟩ := execDemod_input_frameStart h
    exact ⟨hcap, execDemod_timeline h, hinput, nofun, nofun, fun _ _ => ⟨(execDemod_index h).2, hframe⟩, nofun⟩
  | acq =>
    exact ⟨hcap, acquire_timeline h, acquire_input h, nofun, nofun, nofun, fun _ hne => acquire_of_index_ne hne h⟩
  | append _ | edge _ => cases hi

/-- Settles O41: a step, and so a run of any length, completes in a state that meets the invariant. -/
theorem noStepStops : Obligations.NoStepStops := by
  refine ⟨fun s hinv => ?_, fun s n hinv => ?_⟩
  · obtain ⟨t, h, -⟩ := completes_step s hinv
    exact ⟨t, h⟩
  · obtain ⟨t, h, -⟩ := completes_core_run n s hinv
    exact ⟨t, h⟩

end Sys2Proof.Machine
end
